-- ==== Sys2Proof/Word.lean ====
section
/-! DEFINITION. The word types of the machine (00_scope.md R7, R10): words of 16 bits, bytes of 8
bits, and the eight register names. -/

namespace Sys2Proof

/-- A register, PC or memory value: 16 bits, arithmetic modulo 65536 (R7, R10). -/
abbrev Word := BitVec 16

/-- A console byte: 8 bits (00_scope.md R16). -/
abbrev Byte := BitVec 8

/-- A general register's name, R0 to R7 (10_state.md R22). -/
abbrev Reg := Fin 8

end Sys2Proof
end

