-- ==== Sys2Proof/Syntax.lean ====
section
/-! DEFINITION. The instructions: one constructor for each of the 26 rows of spec/opcode_table.json.
Operands are the decoded ones of 30_encoding.md R97: register names, condition bits, and immediates
and offsets held as their 16-bit sign-extended words. -/

namespace Sys2Proof

/-- One decoded instruction (30_encoding.md R97), with the operand tag of ADD and AND and the trap
code of TRAP told apart by constructor, as the opcode table's rows are. -/
inductive Instr where
  /-- ADD, register form (R140). -/
  | addReg (dr sr1 sr2 : Reg)
  /-- ADD, immediate form (R141). -/
  | addImm (dr sr1 : Reg) (imm : Word)
  /-- AND, register form (R142). -/
  | andReg (dr sr1 sr2 : Reg)
  /-- AND, immediate form (R143). -/
  | andImm (dr sr1 : Reg) (imm : Word)
  /-- NOT (R144). -/
  | not (dr sr : Reg)
  /-- BR (R160). -/
  | br (n z p : Bool) (offset : Word)
  /-- RET (R165). -/
  | ret
  /-- JMP (R163), base register other than R7. -/
  | jmp (baseR : Reg)
  /-- JSR (R166). -/
  | jsr (offset : Word)
  /-- JSRR (R167). -/
  | jsrr (baseR : Reg)
  /-- LD (R180). -/
  | ld (dr : Reg) (offset : Word)
  /-- LDI (R181). -/
  | ldi (dr : Reg) (offset : Word)
  /-- LDR (R182). -/
  | ldr (dr baseR : Reg) (offset : Word)
  /-- LEA (R183). -/
  | lea (dr : Reg) (offset : Word)
  /-- ST (R184). -/
  | st (sr : Reg) (offset : Word)
  /-- STI (R185). -/
  | sti (sr : Reg) (offset : Word)
  /-- STR (R186). -/
  | str (sr baseR : Reg) (offset : Word)
  /-- RTI (R221). -/
  | rti
  /-- RESERVED, the sentinel of opcode 1101 (R93, R222). -/
  | reserved
  /-- TRAP x20, GETC (R202). -/
  | trapGetc
  /-- TRAP x21, OUT (R203). -/
  | trapOut
  /-- TRAP x22, PUTS (R204). -/
  | trapPuts
  /-- TRAP x23, IN (R205). -/
  | trapIn
  /-- TRAP x24, PUTSP (R206). -/
  | trapPutsp
  /-- TRAP x25, HALT (R207). -/
  | trapHalt
  /-- The opcode table's row for a TRAP word whose code names no service: the decoder's verdict
  DecodeFailure on such a word, carried as an instruction (R99, log 10). -/
  | trapInvalid (code : Byte)
  deriving DecidableEq, Repr

end Sys2Proof
end

