-- ==== Sys2Proof/WellFormed.lean ====
section
/-! DEFINITION. Which instruction terms an instruction word can name: immediates and offsets within
the range of their field (30_encoding.md R101), JMP through a register other than R7 (R87), and an
invalid trap code that names no service (R95). -/

namespace Sys2Proof

/-- The value fits an `n`-bit two's-complement field: the ranges of 30_encoding.md R101. -/
abbrev FitsSigned (n : Nat) (v : Word) : Prop :=
  -(2 ^ (n - 1) : Int) ≤ v.toInt ∧ v.toInt < (2 ^ (n - 1) : Int)

/-- The trap codes that name a service, 0x20 to 0x25 (30_encoding.md R95). -/
abbrev IsService (code : Byte) : Prop := 0x20 ≤ code.toNat ∧ code.toNat ≤ 0x25

/-- The instruction terms that some instruction word decodes to. -/
def Instr.wellFormed : Instr → Bool
  | .addReg _ _ _ => true
  | .addImm _ _ imm => decide (FitsSigned 5 imm)
  | .andReg _ _ _ => true
  | .andImm _ _ imm => decide (FitsSigned 5 imm)
  | .not _ _ => true
  | .br _ _ _ offset => decide (FitsSigned 9 offset)
  | .ret => true
  | .jmp baseR => decide (baseR ≠ 7)
  | .jsr offset => decide (FitsSigned 11 offset)
  | .jsrr _ => true
  | .ld _ offset => decide (FitsSigned 9 offset)
  | .ldi _ offset => decide (FitsSigned 9 offset)
  | .ldr _ _ offset => decide (FitsSigned 6 offset)
  | .lea _ offset => decide (FitsSigned 9 offset)
  | .st _ offset => decide (FitsSigned 9 offset)
  | .sti _ offset => decide (FitsSigned 9 offset)
  | .str _ _ offset => decide (FitsSigned 6 offset)
  | .rti => true
  | .reserved => true
  | .trapGetc => true
  | .trapOut => true
  | .trapPuts => true
  | .trapIn => true
  | .trapPutsp => true
  | .trapHalt => true
  | .trapInvalid code => decide (¬ IsService code)

end Sys2Proof
end

