-- ==== Sys2Proof/Decode.lean ====
section
/-! DEFINITION. The decoder (30_encoding.md R80 to R101), total over every 16-bit word, and after it
the encoder, written from the same formats. The opcode values are those of R96, fourteen of them the
spec's decision D1 (PRESUMED, log 1); bits no field uses are not read (R98, log 2). -/

namespace Sys2Proof

/-! ### Fields -/

/-- `sext_N` of 00_scope.md R12: the low `n` bits of `v` as a two's-complement number, in 16 bits. -/
def sext (n : Nat) (v : Word) : Word :=
  let low : Word := BitVec.ofNat 16 (2 ^ n - 1)
  if v.getLsbD (n - 1) then v ||| ~~~low else v &&& low

/-- Zero extension of a byte to a word (00_scope.md R13). -/
def zext16 (b : Byte) : Word := b.setWidth 16

/-- The register a three-bit field names (R82). -/
def regOf (field : BitVec 3) : Reg := ⟨field.toNat, field.isLt⟩

/-- The three-bit field that names a register (R82). -/
def regBits (r : Reg) : BitVec 3 := BitVec.ofNat 3 r.val

/-- Bits 15:12, the opcode (R81). -/
def opcodeField (w : Word) : BitVec 4 := w.extractLsb' 12 4

/-- Bits 11:9, dr or the sr of a store (R82). -/
def drField (w : Word) : Reg := regOf (w.extractLsb' 9 3)

/-- Bits 8:6, sr1, sr or base_r (R82). -/
def baseField (w : Word) : Reg := regOf (w.extractLsb' 6 3)

/-- Bits 2:0, sr2 (R82). -/
def sr2Field (w : Word) : Reg := regOf (w.extractLsb' 0 3)

/-- Bits 7:0, trapvect8 (R94). -/
def trapField (w : Word) : Byte := w.extractLsb' 0 8

/-! ### The decoder -/

/-- The decoder's verdict on a word it does not accept (R99). -/
inductive DecodeError where
  /-- An opcode 1111 word whose code names no service, or an opcode the map does not assign. -/
  | decodeFailure
  deriving DecidableEq, Repr

/-- The service a trap code names (R95); every other code is a decode error. -/
def decodeTrap (code : Byte) : Except DecodeError Instr :=
  match code.toNat with
  | 0x20 => .ok .trapGetc
  | 0x21 => .ok .trapOut
  | 0x22 => .ok .trapPuts
  | 0x23 => .ok .trapIn
  | 0x24 => .ok .trapPutsp
  | 0x25 => .ok .trapHalt
  | _ => .error .decodeFailure

/-- The decode function of R100. The last arm is the source's defensive case of an opcode "not covered
above", which the assignment of R96 leaves without a word (D26, C8). -/
def decodeWord (w : Word) : Except DecodeError Instr :=
  match (opcodeField w).toNat with
  | 0b0000 => .ok (.br (w.getLsbD 11) (w.getLsbD 10) (w.getLsbD 9) (sext 9 w))
  | 0b0001 =>
    if w.getLsbD 5 then .ok (.addImm (drField w) (baseField w) (sext 5 w))
    else .ok (.addReg (drField w) (baseField w) (sr2Field w))
  | 0b0010 => .ok (.ld (drField w) (sext 9 w))
  | 0b0011 => .ok (.st (drField w) (sext 9 w))
  | 0b0100 => if w.getLsbD 11 then .ok (.jsr (sext 11 w)) else .ok (.jsrr (baseField w))
  | 0b0101 =>
    if w.getLsbD 5 then .ok (.andImm (drField w) (baseField w) (sext 5 w))
    else .ok (.andReg (drField w) (baseField w) (sr2Field w))
  | 0b0110 => .ok (.ldr (drField w) (baseField w) (sext 6 w))
  | 0b0111 => .ok (.str (drField w) (baseField w) (sext 6 w))
  | 0b1000 => .ok .rti
  | 0b1001 => .ok (.not (drField w) (baseField w))
  | 0b1010 => .ok (.ldi (drField w) (sext 9 w))
  | 0b1011 => .ok (.sti (drField w) (sext 9 w))
  | 0b1100 => if baseField w = 7 then .ok .ret else .ok (.jmp (baseField w))
  | 0b1101 => .ok .reserved
  | 0b1110 => .ok (.lea (drField w) (sext 9 w))
  | 0b1111 => decodeTrap (trapField w)
  | _ => .error .decodeFailure

/-- The instruction a step executes for a word: what `decodeWord` yields, a decode failure as the
opcode table's row for it (log 10). -/
def decode (w : Word) : Instr :=
  match decodeWord w with
  | .ok i => i
  | .error .decodeFailure => .trapInvalid (trapField w)

/-- The instruction the decoder reads from `nbits` bits `w` of the opcode table; every row has one
16-bit word (R80). -/
def decodeTableWord (nbits w : Nat) : Option Instr :=
  if nbits ≤ 16 then some (decode (BitVec.ofNat 16 (w % 2 ^ nbits))) else none

/-! ### The encoder -/

/-- A condition bit of BR (R86). -/
def boolBit (b : Bool) : BitVec 1 := BitVec.ofBool b

/-- The fields of a format, high bits first (00_scope.md R9), as one 16-bit word. -/
def word {n : Nat} (fields : BitVec n) (h : n = 16 := by decide) : Word := fields.cast h

/-- The word of an instruction, by the formats of R83 to R94, with every bit no field uses zero. -/
def encode : Instr → Word
  | .addReg dr sr1 sr2 => word (0b0001#4 ++ regBits dr ++ regBits sr1 ++ 0b000#3 ++ regBits sr2)
  | .addImm dr sr1 imm => word (0b0001#4 ++ regBits dr ++ regBits sr1 ++ 0b1#1 ++ imm.extractLsb' 0 5)
  | .andReg dr sr1 sr2 => word (0b0101#4 ++ regBits dr ++ regBits sr1 ++ 0b000#3 ++ regBits sr2)
  | .andImm dr sr1 imm => word (0b0101#4 ++ regBits dr ++ regBits sr1 ++ 0b1#1 ++ imm.extractLsb' 0 5)
  | .not dr sr => word (0b1001#4 ++ regBits dr ++ regBits sr ++ 0b000000#6)
  | .br n z p offset => word (0b0000#4 ++ boolBit n ++ boolBit z ++ boolBit p ++ offset.extractLsb' 0 9)
  | .ret => word (0b1100#4 ++ 0b000#3 ++ 0b111#3 ++ 0b000000#6)
  | .jmp baseR => word (0b1100#4 ++ 0b000#3 ++ regBits baseR ++ 0b000000#6)
  | .jsr offset => word (0b0100#4 ++ 0b1#1 ++ offset.extractLsb' 0 11)
  | .jsrr baseR => word (0b0100#4 ++ 0b000#3 ++ regBits baseR ++ 0b000000#6)
  | .ld dr offset => word (0b0010#4 ++ regBits dr ++ offset.extractLsb' 0 9)
  | .ldi dr offset => word (0b1010#4 ++ regBits dr ++ offset.extractLsb' 0 9)
  | .ldr dr baseR offset => word (0b0110#4 ++ regBits dr ++ regBits baseR ++ offset.extractLsb' 0 6)
  | .lea dr offset => word (0b1110#4 ++ regBits dr ++ offset.extractLsb' 0 9)
  | .st sr offset => word (0b0011#4 ++ regBits sr ++ offset.extractLsb' 0 9)
  | .sti sr offset => word (0b1011#4 ++ regBits sr ++ offset.extractLsb' 0 9)
  | .str sr baseR offset => word (0b0111#4 ++ regBits sr ++ regBits baseR ++ offset.extractLsb' 0 6)
  | .rti => word (0b1000#4 ++ 0#12)
  | .reserved => word (0b1101#4 ++ 0#12)
  | .trapGetc => word (0b1111#4 ++ 0b0000#4 ++ 0x20#8)
  | .trapOut => word (0b1111#4 ++ 0b0000#4 ++ 0x21#8)
  | .trapPuts => word (0b1111#4 ++ 0b0000#4 ++ 0x22#8)
  | .trapIn => word (0b1111#4 ++ 0b0000#4 ++ 0x23#8)
  | .trapPutsp => word (0b1111#4 ++ 0b0000#4 ++ 0x24#8)
  | .trapHalt => word (0b1111#4 ++ 0b0000#4 ++ 0x25#8)
  | .trapInvalid code => word (0b1111#4 ++ 0b0000#4 ++ code)

end Sys2Proof
end

