-- ==== Sys2Proof/Config.lean ====
section
/-! DEFINITION. The open parameters of 00_scope.md R8, as one record. The source fixes none of them,
so a machine carries its own values (`State.params`) and every statement about all states holds for
every value (log 6). Their defaults stand in Sys2Proof/Machine/Parameters.lean. -/

namespace Sys2Proof

/-- The parameters of 00_scope.md R8. The names are the spec's. -/
structure Params where
  /-- PC_START, the address of the first fetch (D7). -/
  pcStart : Word
  /-- REG_INIT, what R0 to R7 hold after construction (D6). -/
  regInit : Vector Word 8
  /-- KBD_POLL_CONSUMES: a poll that finds a byte takes it from the input stream (D12). -/
  kbdPollConsumes : Bool
  /-- JSRR_LINK_FIRST: JSRR writes R7 before it reads its base register (D18). -/
  jsrrLinkFirst : Bool
  /-- IN_PROMPT: the bytes IN writes before it reads (D20). -/
  inPrompt : List Byte
  /-- IN_ECHO: IN writes the byte it has read (D20). -/
  inEcho : Bool
  deriving DecidableEq, Repr

end Sys2Proof
end

