-- ==== Sys2Proof/Machine/Parameters.lean ====
section
/-! DEFINITION. The fixed parameters of 00_scope.md R7 that memory uses, and the values of the open
parameters (R8) that a machine has where nothing else is said. -/

namespace Sys2Proof.Machine

/-- MEM_WORDS: the number of 16-bit cells (R7, 20_memory.md R50). -/
def memWords : Nat := 65536

/-- KBSR_ADDR, the keyboard-status cell (R7, 10_state.md R32). -/
def kbsrAddr : Nat := 0xFE00

/-- KBDR_ADDR, the keyboard-data cell (R7, 10_state.md R33). -/
def kbdrAddr : Nat := 0xFE02

/-- What a cell holds that nothing has written: 0x0000, "zero-initialized at creation" (R50). -/
def unlistedWord : Word := 0x0000

/-- The link register, R7 (R7, 10_state.md R23). -/
def linkReg : Reg := 7

/-- The parameters a machine has after `State.reset`. PRESUMED: PC_START is the spec's default 0x3000,
general knowledge by its own words (log 4). DESIGN CHOICE: REG_INIT is zero, the spec gives none
(log 3). DEDUCED: the other four are the spec's defaults D12, D18, D20 (log 5). -/
def defaultParams : Params where
  pcStart := 0x3000
  regInit := Vector.replicate 8 0x0000
  kbdPollConsumes := true
  jsrrLinkFirst := true
  inPrompt := []
  inEcho := false

end Sys2Proof.Machine
end

