-- ==== Sys2Proof/Machine/State.lean ====
section
/-! DEFINITION. The state of the machine (10_state.md R21) with the host's ports (R34, R35), the
reasons a run ends (60_exceptions.md R230), and the state after reset (R38). -/

namespace Sys2Proof.Machine

/-- The condition state: exactly one of four values (10_state.md R26). -/
inductive Cond where
  | negative
  | zero
  | positive
  | unset
  deriving DecidableEq, Repr

/-- Why a machine is Halted, with the info each reason records (60_exceptions.md R230). -/
inductive Reason where
  /-- The HALT service (44_trap_system.md R207), the only normal reason. -/
  | halt
  /-- The decoder rejected the fetched word (R231). -/
  | decodeFailure (word : Word)
  /-- A RESERVED word was executed (R232). -/
  | illegalInstruction (word : Word)
  /-- An access at an address of 65536 or more (R233). -/
  | outOfBoundsAccess (addr : Nat)
  /-- A console primitive failed (R234). -/
  | ioFailure
  deriving DecidableEq, Repr

/-- The run state (10_state.md R29). -/
inductive RunState where
  | running
  | halted (reason : Reason)
  deriving DecidableEq, Repr

/-- A console read that waits inside its step for a byte (40_cycle.md R129). DESIGN CHOICE: the held
step is state, so that a held machine can be written down (log 8). -/
inductive HeldRead where
  /-- GETC waits (44_trap_system.md R202). -/
  | getc
  /-- IN waits, its prompt already written (R205). -/
  | inService
  deriving DecidableEq, Repr

/-- The host's draw for one poll or blocking read (10_state.md R34, R36; log 7). -/
inductive InputDraw where
  /-- The next byte of the stream, if there is one, is there now. -/
  | ready
  /-- No byte is there now, whatever the stream still holds. -/
  | notYet
  /-- The primitive fails (R36). -/
  | fails
  deriving DecidableEq, Repr

/-- The host's draw for one console write (10_state.md R36; log 7). -/
inductive OutputDraw where
  | accepts
  | fails
  deriving DecidableEq, Repr

/-- Memory: the cells that hold something other than 0x0000, by rising word address (20_memory.md R50).
One entry is one 16-bit cell, the smallest unit the spec addresses (log 12). -/
abbrev Memory := List (Nat × Word)

/-- The machine state: the core's tuple (x, pc, cond, mem, run) of 10_state.md R21, the step held in a
console read, the host's ports, and the parameters of 00_scope.md R8. -/
structure State where
  /-- R0 to R7 (R22). -/
  regs : Vector Word 8
  /-- The program counter, a word address (R25). -/
  pc : Word
  /-- The condition state (R26). -/
  cond : Cond
  /-- The run state (R29). -/
  run : RunState
  /-- The 65536 cells (20_memory.md R50), the two keyboard cells among them (R32, R33). -/
  mem : Memory
  /-- The console read this machine is held in, if any (40_cycle.md R129). -/
  hold : Option HeldRead
  /-- The bytes the host will deliver, in order (R34). -/
  input : List Byte
  /-- The draws of the coming polls and reads; `ready` after the last (log 7). -/
  inputDraws : List InputDraw
  /-- The bytes taken from the input, in order (70_reset_and_hazards.md R267). -/
  taken : List Byte
  /-- The bytes written to the console, in order (R35). -/
  output : List Byte
  /-- The draws of the coming writes; `accepts` after the last (log 7). -/
  outputDraws : List OutputDraw
  /-- The parameters of R8; no step changes them (log 6). -/
  params : Params
  deriving DecidableEq, Repr

/-- What stops the model with a fault. -/
inductive Fault where
  /-- Raised by `step` alone, on a machine whose run state is Halted: no step is enabled and the
  state is final (40_cycle.md R128). Safe: the hardware takes no step there either. -/
  | halted (reason : Reason)
  deriving DecidableEq, Repr

/-- What the model refuses. -/
inductive Refusal where
  /-- Raised by an arm of `exec` for an instruction with no meaning yet; no arm does. Safe. -/
  | notModelled (mnemonic : String)
  /-- Raised by `launch` for an image of fewer than two or an odd number of bytes: there is no launch
  state (20_memory.md R66). Safe: the model has no run there. -/
  | malformedImage (length : Nat)
  deriving DecidableEq, Repr

/-- Construction, the only reset (70_reset_and_hazards.md R260, 10_state.md R38), for any parameters. The
host's stream and draws are empty: what the host does is not the core's state (log 7). -/
def State.construct (p : Params) : State where
  regs := p.regInit
  pc := p.pcStart
  cond := .unset
  run := .running
  mem := []
  hold := none
  input := []
  inputDraws := []
  taken := []
  output := []
  outputDraws := []
  params := p

/-- The machine right after reset: construction with the parameters of `defaultParams`. -/
def State.reset : State := State.construct defaultParams

end Sys2Proof.Machine
end

