-- ==== Sys2Proof/Machine/Ops.lean ====
section
/-! DEFINITION. The named operations every meaning is built from: registers, memory, the console
primitives, ending a step by `raise`, the keyboard poll, MemRead and MemWrite. -/

namespace Sys2Proof.Machine

/-! ### Phases of a step

A primitive may end the step it stands in (00_scope.md R17, 40_cycle.md R129), so it answers with a
value and the state to go on from, or with the state the step ended in. -/

/-- What a part of a step answers. -/
inductive Phase (α : Type) where
  /-- The step goes on, with a value. -/
  | ok (value : α) (s : State)
  /-- The step has ended: a raise (R17) or a hold (R129). -/
  | ended (s : State)
  deriving Repr

/-- Run the rest of a step, unless it has ended. -/
def Phase.andThen {α β : Type} (first : Phase α) (rest : α → State → Phase β) : Phase β :=
  match first with
  | .ok value s => rest value s
  | .ended s => .ended s

/-- The step's outcome: both ways of finishing a step leave a next state. -/
def Phase.outcome (phase : Phase Unit) : Host.Outcome State Fault Refusal :=
  match phase with
  | .ok _ s => .next s
  | .ended s => .next s

/-! ### Ending a step -/

/-- `raise` (00_scope.md R17), the one way into a termination (60_exceptions.md R237): it sets the run
state and writes nothing else; no state is saved, no mode or stack changes, no vector is read. There is
no return from it (R238): `step` answers a fault on every halted state. -/
def raise (reason : Reason) (s : State) : State := { s with run := .halted reason }

/-! ### Registers -/

/-- `x[r]` (00_scope.md R14). No register is hard-wired (10_state.md R22). -/
def State.reg (s : State) (r : Reg) : Word := s.regs.get r

/-- `x[r] <- v` (R14). -/
def State.setReg (r : Reg) (v : Word) (s : State) : State := { s with regs := s.regs.set r.val v r.isLt }

/-- `pc <- target` (R14). -/
def State.setPc (target : Word) (s : State) : State := { s with pc := target }

/-- The advance of pc by one, wrapping (40_cycle.md R122). -/
def State.advancePc (s : State) : State := s.setPc (s.pc + 1)

/-- `x[7] <- pc`: JSR, JSRR and TRAP save the advanced pc (10_state.md R23, 44_trap_system.md R201). -/
def State.link (s : State) : State := s.setReg linkReg s.pc

/-! ### Memory -/

/-- The cell at an address, without any side effect. -/
def Memory.read : Memory → Nat → Word
  | [], _ => unlistedWord
  | (a, v) :: rest, addr => if a = addr then v else Memory.read rest addr

/-- Put an entry before the first one whose address is not lower. -/
def Memory.insert : Memory → Nat → Word → Memory
  | [], addr, v => [(addr, v)]
  | (a, u) :: rest, addr, v =>
    if a < addr then (a, u) :: Memory.insert rest addr v else (addr, v) :: (a, u) :: rest

/-- Store a cell. A cell that would hold what an unlisted one reads as is not listed. -/
def Memory.write (m : Memory) (addr : Nat) (v : Word) : Memory :=
  let others := m.filter fun c => c.1 ≠ addr
  if v = unlistedWord then others else Memory.insert others addr v

/-- The canonical form: addresses strictly rise and exist, and no entry holds the unlisted word. -/
abbrev Memory.wf (m : Memory) : Prop :=
  m.Pairwise (fun c d => c.1 < d.1) ∧ ∀ c ∈ m, c.1 < memWords ∧ c.2 ≠ unlistedWord

/-- Store a cell of the state's memory. -/
def State.setCell (addr : Nat) (v : Word) (s : State) : State := { s with mem := s.mem.write addr v }

/-- The cell at an address, without any side effect. -/
def State.cell (s : State) (addr : Nat) : Word := s.mem.read addr

/-- The word this step fetched: the cell before the advanced pc, which nothing writes between the fetch
and the execution (40_cycle.md R120). DEDUCED: a reason's recorded word is read here, since the
decoded instruction drops the ignored bits and no fetched word is state (R37, log 11). -/
def fetchedWord (s : State) : Word := s.cell (s.pc - 1).toNat

/-! ### Console primitives (00_scope.md R16) -/

/-- The draw of the coming poll or read; `ready` after the last one listed (log 7). -/
def State.inputDraw (s : State) : InputDraw := s.inputDraws.headD .ready

/-- The byte the host has for the core at this moment, if any (10_state.md R34). -/
def State.available (s : State) : Option Byte :=
  match s.inputDraw with
  | .ready => s.input.head?
  | .notYet => none
  | .fails => none

/-- Spend the draw of a poll or read. -/
def State.spendInputDraw (s : State) : State := { s with inputDraws := s.inputDraws.tail }

/-- Take the first byte of the input stream. -/
def State.takeByte (s : State) : State := { s with input := s.input.tail, taken := s.taken ++ s.input.take 1 }

/-- Set or clear the console read this machine is held in (40_cycle.md R129, log 8). -/
def State.setHold (h : Option HeldRead) (s : State) : State := { s with hold := h }

/-- ConsoleTryRead, the poll that never blocks (R16, R34). Taking the byte is the caller's. -/
def consoleTryRead (s : State) : Phase (Option Byte) :=
  match s.inputDraw with
  | .fails => .ended (raise .ioFailure s.spendInputDraw)
  | .ready => .ok s.available s.spendInputDraw
  | .notYet => .ok s.available s.spendInputDraw

/-- ConsoleRead, the blocking read (R16, R34). With no byte it holds the step, and the core tries again
at its next step with the next draw (40_cycle.md R129, log 8). -/
def consoleRead (service : HeldRead) (s : State) : Phase Byte :=
  match s.inputDraw, s.available with
  | .fails, _ => .ended (raise .ioFailure (s.spendInputDraw.setHold none))
  | _, some b => .ok b (s.spendInputDraw.takeByte.setHold none)
  | _, none => .ended (s.spendInputDraw.setHold (some service))

/-- The draw of the coming write; `accepts` after the last one listed (log 7). -/
def State.outputDraw (s : State) : OutputDraw := s.outputDraws.headD .accepts

/-- Spend the draw of a write. -/
def State.spendOutputDraw (s : State) : State := { s with outputDraws := s.outputDraws.tail }

/-- A byte reaches the sink: it is appended to the output (R35, 44_trap_system.md R211). -/
def State.emit (b : Byte) (s : State) : State := { s with output := s.output ++ [b] }

/-- ConsoleWrite (R16, R35): one byte to the one sink. -/
def consoleWrite (b : Byte) (s : State) : Phase Unit :=
  match s.outputDraw with
  | .fails => .ended (raise .ioFailure s.spendOutputDraw)
  | .accepts => .ok () (s.spendOutputDraw.emit b)

/-- ConsoleWrite of each byte in order. -/
def consoleWriteAll : List Byte → State → Phase Unit
  | [], s => .ok () s
  | b :: rest, s => (consoleWrite b s).andThen fun _ s => consoleWriteAll rest s

/-- The host delivers bytes: they join the end of the input stream (R20, R34). -/
def State.deliver (bytes : List Byte) (s : State) : State := { s with input := s.input ++ bytes }

/-! ### MemRead and MemWrite -/

/-- KeyboardPoll (20_memory.md R55). -/
def keyboardPoll (s : State) : Phase Unit :=
  (consoleTryRead s).andThen fun answer s =>
    match answer with
    | some b =>
      let s := (s.setCell kbsrAddr 0x8000).setCell kbdrAddr (zext16 b)
      .ok () (if s.params.kbdPollConsumes then s.takeByte else s)
    | none => .ok () (s.setCell kbsrAddr 0x0000)

/-- MemRead (20_memory.md R53): the bound is checked, and every read of 0xFE00 polls first (R58). -/
def memRead (addr : Nat) (s : State) : Phase Word :=
  if memWords ≤ addr then .ended (raise (.outOfBoundsAccess addr) s)
  else if addr = kbsrAddr then (keyboardPoll s).andThen fun _ s => .ok (s.cell addr) s
  else .ok (s.cell addr) s

/-- MemWrite (20_memory.md R54): the bound is checked; no address has a side effect (R56). -/
def memWrite (addr : Nat) (v : Word) (s : State) : Phase Unit :=
  if memWords ≤ addr then .ended (raise (.outOfBoundsAccess addr) s)
  else .ok () (s.setCell addr v)

end Sys2Proof.Machine
end

