-- ==== Sys2Proof/Machine/Flags.lean ====
section
/-! DEFINITION. The flags rule (40_cycle.md R126) and the branch test (42_control.md R160). -/

namespace Sys2Proof.Machine

/-- The class of a 16-bit result (R126). -/
def condOf (v : Word) : Cond :=
  if v.getLsbD 15 then .negative else if v = 0 then .zero else .positive

/-- `setcc(v)` (R126). -/
def setcc (v : Word) (s : State) : State := { s with cond := condOf v }

/-- Write a result and set the flags from the value written (R126): the end of every flag-setting
instruction. -/
def writeResult (dr : Reg) (v : Word) (s : State) : State := setcc v (s.setReg dr v)

/-- The mask nzp of a condition state (10_state.md R28; the spec's representation D5, log 21). -/
def Cond.mask : Cond → BitVec 3
  | .negative => 0b100
  | .zero => 0b010
  | .positive => 0b001
  | .unset => 0b000

/-- Whether BR's bits meet the active condition (R160). Unset meets none (R162). -/
def branchTaken (n z p : Bool) (c : Cond) : Bool :=
  (n && c == .negative) || (z && c == .zero) || (p && c == .positive)

end Sys2Proof.Machine
end

