-- ==== Sys2Proof/Machine/Operands.lean ====
section
/-! DEFINITION. The operand forms: the tagged second operand of ADD and AND (30_encoding.md R97) and the
addressing modes (43_load_store.md R188). Every effective address wraps modulo 65536 (R187). -/

namespace Sys2Proof.Machine

/-- A second operand of ADD or AND (R97). -/
inductive Operand where
  | reg (r : Reg)
  | imm (v : Word)
  deriving DecidableEq, Repr

/-- The value of a second operand. -/
def Operand.value (s : State) : Operand → Word
  | .reg r => s.reg r
  | .imm v => v

/-- The PC-relative address, from the advanced pc (R188, 40_cycle.md R122). -/
def pcRelative (offset : Word) (s : State) : Word := s.pc + offset

/-- The base + offset address (R188). -/
def baseOffset (baseR : Reg) (offset : Word) (s : State) : Word := s.reg baseR + offset

/-- The address of the indirect mode: the pointer cell is read by a MemRead, which polls at 0xFE00
(R181, R185). -/
def indirect (offset : Word) (s : State) : Phase Word := memRead (pcRelative offset s).toNat s

end Sys2Proof.Machine
end

