-- ==== Sys2Proof/Machine/Alu.lean ====
section
/-! DEFINITION. ADD, AND and NOT (41_alu.md). Sources are read before the destination is written
(R147); no carry or overflow is recorded (R145). -/

namespace Sys2Proof.Machine

/-- ADD: the sum modulo 65536 (R140, R141, R145). -/
def addOp (dr sr1 : Reg) (op2 : Operand) (s : State) : State :=
  writeResult dr (s.reg sr1 + op2.value s) s

/-- AND: the bitwise conjunction (R142, R143). -/
def andOp (dr sr1 : Reg) (op2 : Operand) (s : State) : State :=
  writeResult dr (s.reg sr1 &&& op2.value s) s

/-- ADD, register form (R140). -/
def execAddReg (dr sr1 sr2 : Reg) (s : State) : Host.Outcome State Fault Refusal :=
  .next (addOp dr sr1 (.reg sr2) s)

/-- ADD, immediate form (R141). -/
def execAddImm (dr sr1 : Reg) (imm : Word) (s : State) : Host.Outcome State Fault Refusal :=
  .next (addOp dr sr1 (.imm imm) s)

/-- AND, register form (R142). -/
def execAndReg (dr sr1 sr2 : Reg) (s : State) : Host.Outcome State Fault Refusal :=
  .next (andOp dr sr1 (.reg sr2) s)

/-- AND, immediate form (R143). -/
def execAndImm (dr sr1 : Reg) (imm : Word) (s : State) : Host.Outcome State Fault Refusal :=
  .next (andOp dr sr1 (.imm imm) s)

/-- NOT, the 16-bit complement (R144). -/
def execNot (dr sr : Reg) (s : State) : Host.Outcome State Fault Refusal :=
  .next (writeResult dr (~~~ s.reg sr) s)

end Sys2Proof.Machine
end

