-- ==== Sys2Proof/Machine/Control.lean ====
section
/-! DEFINITION. BR, JMP, RET, JSR and JSRR (42_control.md). `pc` is the advanced pc; a transfer takes
effect at the next fetch (R168). -/

namespace Sys2Proof.Machine

/-- BR (R160). -/
def execBr (n z p : Bool) (offset : Word) (s : State) : Host.Outcome State Fault Refusal :=
  .next (if branchTaken n z p s.cond then s.setPc (pcRelative offset s) else s)

/-- JMP (R163). -/
def execJmp (baseR : Reg) (s : State) : Host.Outcome State Fault Refusal :=
  .next (s.setPc (s.reg baseR))

/-- RET (R165). -/
def execRet (s : State) : Host.Outcome State Fault Refusal :=
  .next (s.setPc (s.reg linkReg))

/-- JSR (R166): R7 gets the return address, then pc the target. -/
def execJsr (offset : Word) (s : State) : Host.Outcome State Fault Refusal :=
  .next (s.link.setPc (pcRelative offset s))

/-- JSRR (R167). Only a base of R7 tells the two orders apart: with JSRR_LINK_FIRST the jump goes to
the value just written there (log 5). -/
def execJsrr (baseR : Reg) (s : State) : Host.Outcome State Fault Refusal :=
  .next (if s.params.jsrrLinkFirst then s.link.setPc (s.link.reg baseR) else s.link.setPc (s.reg baseR))

end Sys2Proof.Machine
end

