-- ==== Sys2Proof/Machine/LoadStore.lean ====
section
/-! DEFINITION. LD, LDI, LDR, LEA, ST, STI and STR (43_load_store.md). Every read is a MemRead, so one
of 0xFE00 polls the keyboard and may end the step with IoFailure; stores never poll. -/

namespace Sys2Proof.Machine

/-- Load a word into a register and set the flags from it (R180 to R182). -/
def loadFrom (dr : Reg) (addr : Word) (s : State) : Phase Unit :=
  (memRead addr.toNat s).andThen fun v s => .ok () (writeResult dr v s)

/-- Store a register (R184 to R186). -/
def storeTo (sr : Reg) (addr : Word) (s : State) : Phase Unit := memWrite addr.toNat (s.reg sr) s

/-- LD (R180). -/
def execLd (dr : Reg) (offset : Word) (s : State) : Host.Outcome State Fault Refusal :=
  (loadFrom dr (pcRelative offset s) s).outcome

/-- LDI (R181): the pointer cell, then the data cell; each read may poll. -/
def execLdi (dr : Reg) (offset : Word) (s : State) : Host.Outcome State Fault Refusal :=
  ((indirect offset s).andThen fun addr s => loadFrom dr addr s).outcome

/-- LDR (R182): the base is read before dr is written. -/
def execLdr (dr baseR : Reg) (offset : Word) (s : State) : Host.Outcome State Fault Refusal :=
  (loadFrom dr (baseOffset baseR offset s) s).outcome

/-- LEA (R183): the address itself, no memory access, flags from it. -/
def execLea (dr : Reg) (offset : Word) (s : State) : Host.Outcome State Fault Refusal :=
  .next (writeResult dr (pcRelative offset s) s)

/-- ST (R184). -/
def execSt (sr : Reg) (offset : Word) (s : State) : Host.Outcome State Fault Refusal :=
  (storeTo sr (pcRelative offset s) s).outcome

/-- STI (R185): the pointer read may poll, the store never does. -/
def execSti (sr : Reg) (offset : Word) (s : State) : Host.Outcome State Fault Refusal :=
  ((indirect offset s).andThen fun addr s => storeTo sr addr s).outcome

/-- STR (R186). -/
def execStr (sr baseR : Reg) (offset : Word) (s : State) : Host.Outcome State Fault Refusal :=
  (storeTo sr (baseOffset baseR offset s) s).outcome

end Sys2Proof.Machine
end

