-- ==== Sys2Proof/Machine/System.lean ====
section
/-! DEFINITION. RTI and RESERVED (44_trap_system.md R221, R222). -/

namespace Sys2Proof.Machine

/-- RTI: no effect (R221). It pops nothing, restores nothing and checks no privilege (I2). -/
def execRti (s : State) : Host.Outcome State Fault Refusal := .next s

/-- RESERVED: IllegalInstruction with the fetched word, always; no handler runs (R222, R232). -/
def execReserved (s : State) : Host.Outcome State Fault Refusal :=
  .next (raise (.illegalInstruction (fetchedWord s)) s)

end Sys2Proof.Machine
end

