-- ==== Sys2Proof/Machine/Trap.lean ====
section
/-! DEFINITION. The trap dispatcher (44_trap_system.md). TRAP saves the advanced pc in R7 and runs its
service in the same step (R200, R201, R212); no service reads a vector or changes pc (R209). A failing
console primitive ends the step and keeps what the step wrote before it (60_exceptions.md R234). -/

namespace Sys2Proof.Machine

/-! ### GETC and IN -/

/-- What GETC and IN do with their byte: zero-extended into R0, flags from it (R202, R205, D21). -/
def acceptByte (b : Byte) (s : State) : State := writeResult 0 (zext16 b) s

/-- GETC's read and what follows it (R202). -/
def getcRead (s : State) : Phase Unit :=
  (consoleRead .getc s).andThen fun b s => .ok () (acceptByte b s)

/-- IN's read and what follows it: the echo if IN_ECHO is set, then R0 and the flags (R205). -/
def inRead (s : State) : Phase Unit :=
  (consoleRead .inService s).andThen fun b s =>
    (if s.params.inEcho then consoleWrite b s else .ok () s).andThen fun _ s =>
      .ok () (acceptByte b s)

/-- The rest of a step held in a console read: the read is tried again, and what the step wrote before
the hold stays (40_cycle.md R129, log 8). -/
def resumeRead (service : HeldRead) (s : State) : Phase Unit :=
  match service with
  | .getc => getcRead s
  | .inService => inRead s

/-! ### PUTS and PUTSP -/

/-- What PUTS writes for a cell: its low byte (R204). -/
def putsBytes (c : Word) : List Byte := [c.extractLsb' 0 8]

/-- What PUTSP writes for a cell: the low byte always, then the high byte if it is not zero (R206). -/
def putspBytes (c : Word) : List Byte :=
  if c.extractLsb' 8 8 = 0 then [c.extractLsb' 0 8] else [c.extractLsb' 0 8, c.extractLsb' 8 8]

/-- The string walk of R204 and R206 from address `addr`: a cell of 0x0000 ends it, any other cell is
written and the address counts up without wrapping (R208, D9). `cells` bounds the recursion: it is the
number of cells from `addr` to the top, and past the top the read raises OutOfBoundsAccess. -/
def writeString (bytes : Word → List Byte) : (cells addr : Nat) → State → Phase Unit
  | 0, addr, s => (memRead addr s).andThen fun _ s => .ok () s
  | cells + 1, addr, s =>
    (memRead addr s).andThen fun c s =>
      if c = 0x0000 then .ok () s
      else (consoleWriteAll (bytes c) s).andThen fun _ s => writeString bytes cells (addr + 1) s

/-- The string walk from the address in R0. -/
def writeStringAtR0 (bytes : Word → List Byte) (s : State) : Phase Unit :=
  writeString bytes (memWords - (s.reg 0).toNat) (s.reg 0).toNat s

/-! ### The six services, and the code that names none -/

/-- TRAP x20, GETC (R202). -/
def execTrapGetc (s : State) : Host.Outcome State Fault Refusal := (getcRead s.link).outcome

/-- TRAP x21, OUT (R203). -/
def execTrapOut (s : State) : Host.Outcome State Fault Refusal :=
  (consoleWrite ((s.link.reg 0).extractLsb' 0 8) s.link).outcome

/-- TRAP x22, PUTS (R204). -/
def execTrapPuts (s : State) : Host.Outcome State Fault Refusal :=
  (writeStringAtR0 putsBytes s.link).outcome

/-- TRAP x23, IN (R205): the prompt IN_PROMPT, then the read (D20). -/
def execTrapIn (s : State) : Host.Outcome State Fault Refusal :=
  ((consoleWriteAll s.params.inPrompt s.link).andThen fun _ s => inRead s).outcome

/-- TRAP x24, PUTSP (R206). -/
def execTrapPutsp (s : State) : Host.Outcome State Fault Refusal :=
  (writeStringAtR0 putspBytes s.link).outcome

/-- TRAP x25, HALT (R207): R7 is written first; no output. -/
def execTrapHalt (s : State) : Host.Outcome State Fault Refusal := .next (raise .halt s.link)

/-- A TRAP word whose code names no service: DecodeFailure, before R7 is written (40_cycle.md R123,
60_exceptions.md R231). The recorded word is the fetched one. -/
def execTrapInvalid (_code : Byte) (s : State) : Host.Outcome State Fault Refusal :=
  .next (raise (.decodeFailure (fetchedWord s)) s)

end Sys2Proof.Machine
end

