-- ==== Sys2Proof/Machine/Dispatch.lean ====
section
/-! DEFINITION. The execute dispatch (40_cycle.md R124): one arm per instruction, one meaning per arm. -/

namespace Sys2Proof.Machine

def exec (i : Instr) (s : State) : Host.Outcome State Fault Refusal :=
  match i with
  -- 41_alu.md
  | .addReg dr sr1 sr2 => Sys2Proof.Machine.execAddReg dr sr1 sr2 s
  | .addImm dr sr1 imm => Sys2Proof.Machine.execAddImm dr sr1 imm s
  | .andReg dr sr1 sr2 => Sys2Proof.Machine.execAndReg dr sr1 sr2 s
  | .andImm dr sr1 imm => Sys2Proof.Machine.execAndImm dr sr1 imm s
  | .not dr sr => Sys2Proof.Machine.execNot dr sr s
  -- 42_control.md
  | .br n z p offset => Sys2Proof.Machine.execBr n z p offset s
  | .ret => Sys2Proof.Machine.execRet s
  | .jmp baseR => Sys2Proof.Machine.execJmp baseR s
  | .jsr offset => Sys2Proof.Machine.execJsr offset s
  | .jsrr baseR => Sys2Proof.Machine.execJsrr baseR s
  -- 43_load_store.md
  | .ld dr offset => Sys2Proof.Machine.execLd dr offset s
  | .ldi dr offset => Sys2Proof.Machine.execLdi dr offset s
  | .ldr dr baseR offset => Sys2Proof.Machine.execLdr dr baseR offset s
  | .lea dr offset => Sys2Proof.Machine.execLea dr offset s
  | .st sr offset => Sys2Proof.Machine.execSt sr offset s
  | .sti sr offset => Sys2Proof.Machine.execSti sr offset s
  | .str sr baseR offset => Sys2Proof.Machine.execStr sr baseR offset s
  -- 44_trap_system.md
  | .rti => Sys2Proof.Machine.execRti s
  | .reserved => Sys2Proof.Machine.execReserved s
  | .trapGetc => Sys2Proof.Machine.execTrapGetc s
  | .trapOut => Sys2Proof.Machine.execTrapOut s
  | .trapPuts => Sys2Proof.Machine.execTrapPuts s
  | .trapIn => Sys2Proof.Machine.execTrapIn s
  | .trapPutsp => Sys2Proof.Machine.execTrapPutsp s
  | .trapHalt => Sys2Proof.Machine.execTrapHalt s
  | .trapInvalid code => Sys2Proof.Machine.execTrapInvalid code s

end Sys2Proof.Machine
end

