-- ==== Sys2Proof/Machine/Fetch.lean ====
section
/-! DEFINITION. Fetching an instruction's word (40_cycle.md R121, R122). -/

namespace Sys2Proof.Machine

/-- The fetch, a MemRead of the cell at pc, and the advance of pc. If the fetch ends the step, pc is not
advanced (R121). -/
def fetch (s : State) : Phase Word :=
  (memRead s.pc.toNat s).andThen fun w s => .ok w s.advancePc

/-- Where an instruction word can be placed so that the coming fetch reads it: pc, but for 0xFE00, whose
fetch polls and overwrites the cell; there the cell after it (log 20). -/
def placeFor (s : State) : Word := if s.pc.toNat = kbsrAddr then s.pc + 1 else s.pc

end Sys2Proof.Machine
end

