-- ==== Sys2Proof/Machine/Step.lean ====
section
/-! DEFINITION. The step (40_cycle.md R120), and placing a word where it fetches. -/

namespace Sys2Proof.Machine

/-- One step. A halted machine takes none (R128); a machine held in a console read tries the read again
(R129, log 8); any other machine fetches, advances pc, decodes and executes (R120). -/
def step (s : State) : Host.Outcome State Fault Refusal :=
  match s.run with
  | .halted reason => .fault (.halted reason)
  | .running =>
    match s.hold with
    | some service => (resumeRead service s).outcome
    | none =>
      match fetch s with
      | .ended s' => .next s'
      | .ok w s' => exec (decode w) s'

/-- The state with an instruction word of the opcode table stored where the coming step fetches it: a
machine that runs and holds no read, with the word in the cell at pc (log 20). -/
def State.withFetchWord (s : State) (nbits w : Nat) : State :=
  let word := BitVec.ofNat 16 (w % 2 ^ nbits)
  { s with
    run := .running
    hold := none
    pc := placeFor s
    mem := s.mem.write (placeFor s).toNat word }

end Sys2Proof.Machine
end

