-- ==== Sys2Proof/Machine/Image.lean ====
section
/-! DEFINITION. The program image and the launch of a machine (20_memory.md R65, R66;
70_reset_and_hazards.md R261). -/

namespace Sys2Proof.Machine

/-- `joinBytes(hi, lo)`, big-endian (00_scope.md R13). -/
def joinBytes (hi lo : Byte) : Word := hi ++ lo

/-- The words of an image after its origin: bytes paired big-endian. None if one byte is left over. -/
def imageWords : List Byte → Option (List Word)
  | [] => some []
  | [_] => none
  | hi :: lo :: rest => (imageWords rest).map fun words => joinBytes hi lo :: words

/-- Store words at consecutive addresses, up to the last valid one (R65: the address does not wrap). -/
def loadWords : List Word → Nat → Memory → Memory
  | [], _, m => m
  | w :: rest, addr, m => if memWords ≤ addr then m else loadWords rest (addr + 1) (m.write addr w)

/-- `loadImage(bytes)` (R65). None where the image is malformed (R66, log 19). It changes memory only, and
writes cells directly: no poll, no console action. -/
def loadImage (bytes : List Byte) (s : State) : Option State :=
  match bytes with
  | hi :: lo :: rest =>
    (imageWords rest).map fun words => { s with mem := loadWords words (joinBytes hi lo).toNat s.mem }
  | _ => none

/-- A launch: construction, then one image load (R261); the steps follow. A malformed image is refused. -/
def launch (p : Params) (bytes : List Byte) : Host.Outcome State Fault Refusal :=
  match loadImage bytes (State.construct p) with
  | some s => .next s
  | none => .refused (.malformedImage bytes.length)

end Sys2Proof.Machine
end

