-- ==== Sys2Proof/Safety.lean ====
section
/-! DEFINITION. What claims speak of: the invariant of a machine, a host that never fails, the run from
one state to another, and how a run ends (70_reset_and_hazards.md R267). -/

namespace Sys2Proof.Machine

/-- The invariant every step keeps: memory is in its canonical form, and only a running machine is held
in a console read (40_cycle.md R128, R129). -/
abbrev State.Inv (s : State) : Prop := s.mem.wf ∧ (s.hold ≠ none → s.run = .running)

/-- No draw still to come is a failure: the premise "no IoFailure occurs" of R267. -/
abbrev State.HostReliable (s : State) : Prop :=
  (∀ d ∈ s.inputDraws, d ≠ .fails) ∧ (∀ d ∈ s.outputDraws, d ≠ .fails)

/-- The machine can fetch: it runs and is held in no console read. -/
abbrev State.Fetching (s : State) : Prop := s.run = .running ∧ s.hold = none

/-- Some number of steps lead from one state to another. -/
inductive Reaches : State → State → Prop where
  | refl (s : State) : Reaches s s
  | step {s t u : State} (first : Sys2Proof.Machine.step s = .next t) (rest : Reaches t u) : Reaches s u

/-- What a run that has ended lets a claim observe: the five things of R267. -/
structure Observation where
  regs : Vector Word 8
  pc : Word
  cond : Cond
  mem : Memory
  reason : Reason
  output : List Byte
  taken : List Byte
  deriving DecidableEq, Repr

/-- The observation of a run that ends in this state; none while it has not ended (R267). -/
def State.observe (s : State) : Option Observation :=
  match s.run with
  | .running => none
  | .halted reason => some ⟨s.regs, s.pc, s.cond, s.mem, reason, s.output, s.taken⟩

/-- A run from `s` that ends with this observation. -/
def EndsWith (s : State) (o : Observation) : Prop := ∃ t, Reaches s t ∧ t.observe = some o

/-- A run succeeds exactly when its reason is Halt (R267). -/
def Observation.success (o : Observation) : Bool := o.reason == .halt

end Sys2Proof.Machine
end

