-- ==== Sys2Proof/Certificates/Slice0/Obligations.lean ====
section
/-! DEFINITION. The statements for the provers, each a formalised rule of the spec or a rule about the
whole machine. The relations before them say what frames speak of. -/

namespace Sys2Proof.Machine

/-! ### Relations the statements use -/

/-- Every register keeps its value. -/
def SameRegs (s t : State) : Prop := ∀ q, t.reg q = s.reg q

/-- Every register but `r` keeps its value. -/
def SameRegsBut (r : Reg) (s t : State) : Prop := ∀ q, q ≠ r → t.reg q = s.reg q

/-- Every cell of memory reads as before. -/
def SameCells (s t : State) : Prop := ∀ a, t.cell a = s.cell a

/-- Every cell of memory but `k` reads as before. -/
def SameCellsBut (k : Nat) (s t : State) : Prop := ∀ a, a ≠ k → t.cell a = s.cell a

/-- The input port keeps its stream, its draws and what was taken. -/
def SameInput (s t : State) : Prop :=
  t.input = s.input ∧ t.inputDraws = s.inputDraws ∧ t.taken = s.taken

/-- The output port keeps its bytes and its draws. -/
def SameOutput (s t : State) : Prop := t.output = s.output ∧ t.outputDraws = s.outputDraws

/-- The run state, the hold and the parameters are kept. -/
def SameControl (s t : State) : Prop := t.run = s.run ∧ t.hold = s.hold ∧ t.params = s.params

/-- `c` classifies `v` read as a signed number (40_cycle.md R126). -/
def Classifies (c : Cond) (v : Word) : Prop :=
  (v.toInt < 0 ∧ c = .negative) ∨ (v.toInt = 0 ∧ c = .zero) ∨ (0 < v.toInt ∧ c = .positive)

/-- `t` is `s` but for `v` in `dr` and the flags of `v`. -/
def ResultIn (dr : Reg) (v : Word) (s t : State) : Prop :=
  t.reg dr = v ∧ Classifies t.cond v ∧ SameRegsBut dr s t ∧ t.pc = s.pc ∧
    SameCells s t ∧ SameControl s t ∧ SameInput s t ∧ SameOutput s t

/-- `t` is `s` but for `v` in the cell `ea`. -/
def StoredAt (ea : Nat) (v : Word) (s t : State) : Prop :=
  t.cell ea = v ∧ SameCellsBut ea s t ∧ SameRegs s t ∧ t.cond = s.cond ∧ t.pc = s.pc ∧
    SameControl s t ∧ SameInput s t ∧ SameOutput s t

/-- `t` is `s` ended with this reason; nothing else differs. -/
def EndedWith (r : Reason) (s t : State) : Prop :=
  t.run = .halted r ∧ SameRegs s t ∧ t.cond = s.cond ∧ t.pc = s.pc ∧ SameCells s t ∧
    t.hold = s.hold ∧ t.params = s.params ∧ SameInput s t ∧ SameOutput s t

/-- `t` is `s` after an input primitive that failed: halted with IoFailure, one draw spent, nothing else
different (60_exceptions.md R234). -/
def InputFailed (s t : State) : Prop :=
  t.run = .halted .ioFailure ∧ SameRegs s t ∧ t.cond = s.cond ∧ t.pc = s.pc ∧ SameCells s t ∧
    t.params = s.params ∧ t.input = s.input ∧ t.taken = s.taken ∧
    t.inputDraws = s.inputDraws.tail ∧ SameOutput s t

/-- A load of the cell `ea` into `dr` by the instruction `i` (43_load_store.md R180, R182): from a cell
that is not the keyboard status; from that cell when its poll goes through; when its poll fails. -/
def LoadsCell (i : Instr) (dr : Reg) (ea : Nat) (s : State) : Prop :=
  (ea ≠ 0xFE00 → ∃ t, exec i s = .next t ∧ ResultIn dr (s.cell ea) s t) ∧
  (ea = 0xFE00 → s.inputDraw ≠ .fails → ∃ v u t, memRead 0xFE00 s = .ok v u ∧
    (v = 0x8000 ∨ v = 0x0000) ∧ exec i s = .next t ∧ ResultIn dr v u t) ∧
  (ea = 0xFE00 → s.inputDraw = .fails → ∃ t, exec i s = .next t ∧ InputFailed s t)

/-- The register whose new value an instruction classifies by setcc (40_cycle.md R126, R127); none for an
instruction that is not flag-setting. -/
def flagsFrom : Instr → Option Reg
  | .addReg dr _ _ | .addImm dr _ _ | .andReg dr _ _ | .andImm dr _ _ | .not dr _ => some dr
  | .ld dr _ | .ldi dr _ | .ldr dr _ _ | .lea dr _ => some dr
  | .trapGetc | .trapIn => some 0
  | .br _ _ _ _ | .ret | .jmp _ | .jsr _ | .jsrr _ | .st _ _ | .sti _ _ | .str _ _ _ => none
  | .rti | .reserved | .trapOut | .trapPuts | .trapPutsp | .trapHalt | .trapInvalid _ => none

/-- The instructions that call setcc (R127). -/
def SetsFlags (i : Instr) : Prop := ∃ r, flagsFrom i = some r

/-- The registers an instruction may write (10_state.md R24). -/
def WritesReg : Instr → Reg → Prop
  | .addReg dr _ _, r | .addImm dr _ _, r | .andReg dr _ _, r | .andImm dr _ _, r | .not dr _, r => r = dr
  | .ld dr _, r | .ldi dr _, r | .ldr dr _ _, r | .lea dr _, r => r = dr
  | .jsr _, r | .jsrr _, r => r = 7
  | .trapGetc, r | .trapIn, r => r = 7 ∨ r = 0
  | .trapOut, r | .trapPuts, r | .trapPutsp, r | .trapHalt, r => r = 7
  | .br _ _ _ _, _ | .ret, _ | .jmp _, _ | .st _ _, _ | .sti _ _, _ | .str _ _ _, _ => False
  | .rti, _ | .reserved, _ | .trapInvalid _, _ => False

/-- The instructions that store (20_memory.md R51). -/
def Stores : Instr → Prop
  | .st _ _ | .sti _ _ | .str _ _ _ => True
  | .addReg _ _ _ | .addImm _ _ _ | .andReg _ _ _ | .andImm _ _ _ | .not _ _ => False
  | .br _ _ _ _ | .ret | .jmp _ | .jsr _ | .jsrr _ | .ld _ _ | .ldi _ _ | .ldr _ _ _ | .lea _ _ => False
  | .rti | .reserved | .trapGetc | .trapOut | .trapPuts | .trapIn | .trapPutsp | .trapHalt => False
  | .trapInvalid _ => False

/-- The instructions that may read data from memory (20_memory.md R51). -/
def ReadsMemory : Instr → Prop
  | .ld _ _ | .ldi _ _ | .ldr _ _ _ | .sti _ _ | .trapPuts | .trapPutsp => True
  | .addReg _ _ _ | .addImm _ _ _ | .andReg _ _ _ | .andImm _ _ _ | .not _ _ => False
  | .br _ _ _ _ | .ret | .jmp _ | .jsr _ | .jsrr _ | .lea _ _ | .st _ _ | .str _ _ _ => False
  | .rti | .reserved | .trapGetc | .trapOut | .trapIn | .trapHalt | .trapInvalid _ => False

/-- The instructions that write pc (42_control.md). -/
def TransfersControl : Instr → Prop
  | .br _ _ _ _ | .ret | .jmp _ | .jsr _ | .jsrr _ => True
  | .addReg _ _ _ | .addImm _ _ _ | .andReg _ _ _ | .andImm _ _ _ | .not _ _ => False
  | .ld _ _ | .ldi _ _ | .ldr _ _ _ | .lea _ _ | .st _ _ | .sti _ _ | .str _ _ _ => False
  | .rti | .reserved | .trapGetc | .trapOut | .trapPuts | .trapIn | .trapPutsp | .trapHalt => False
  | .trapInvalid _ => False

/-- The six services of TRAP (30_encoding.md R95). -/
def trapServices : List Instr := [.trapGetc, .trapOut, .trapPuts, .trapIn, .trapPutsp, .trapHalt]

/-- The bits of a word that its format uses (30_encoding.md R83 to R94, R98). -/
def usedBits (w : Word) : Word :=
  match (w.extractLsb' 12 4).toNat with
  | 0b0001 | 0b0101 => if w.getLsbD 5 then 0xFFFF else 0xFFE7
  | 0b1001 => 0xFFC0
  | 0b1100 => 0xF1C0
  | 0b0100 => if w.getLsbD 11 then 0xFFFF else 0xF9C0
  | 0b1000 | 0b1101 => 0xF000
  | 0b1111 => 0xF0FF
  | _ => 0xFFFF

/-- The bytes PUTS writes for `n` cells from `addr` (44_trap_system.md R204). -/
def putsText (s : State) (addr n : Nat) : List Byte :=
  (List.range n).map fun k => (s.cell (addr + k)).extractLsb' 0 8

/-- The bytes PUTSP writes for `n` cells from `addr` (R206). -/
def putspText (s : State) (addr n : Nat) : List Byte :=
  (List.range n).flatMap fun k =>
    let low := (s.cell (addr + k)).extractLsb' 0 8
    let high := (s.cell (addr + k)).extractLsb' 8 8
    if high = 0 then [low] else [low, high]

/-- From `addr`, `n` cells that are not zero, none of them the keyboard status. -/
def PlainText (s : State) (addr n : Nat) : Prop :=
  ∀ k, k < n → s.cell (addr + k) ≠ 0x0000 ∧ addr + k ≠ 0xFE00

/-- The sink accepts the next `n` bytes. -/
def SinkAccepts (s : State) (n : Nat) : Prop := ∀ d ∈ s.outputDraws.take n, d = .accepts

/-- `t` is `s` after a service that wrote `text` and R7, and nothing else. -/
def Printed (text : List Byte) (s t : State) : Prop :=
  t.output = s.output ++ text ∧ t.outputDraws = s.outputDraws.drop text.length ∧
    t.reg 7 = s.pc ∧ SameRegsBut 7 s t ∧ t.cond = s.cond ∧ t.pc = s.pc ∧ SameCells s t ∧
    t.hold = s.hold ∧ t.params = s.params ∧ SameInput s t

/-- `t` is `s` after GETC or IN took the byte `b`: R0 and the flags from it, R7 linked. -/
def ByteTaken (b : Byte) (s t : State) : Prop :=
  (t.reg 0).toNat = b.toNat ∧ Classifies t.cond (t.reg 0) ∧ t.cond ≠ .negative ∧
    t.input = s.input.tail ∧ t.taken = s.taken ++ [b] ∧ t.inputDraws = s.inputDraws.tail ∧
    (∀ q, q ≠ 0 → q ≠ 7 → t.reg q = s.reg q) ∧ t.pc = s.pc ∧ SameCells s t ∧ t.run = s.run ∧
    t.hold = none ∧ t.params = s.params

/-- `t` is `s` ended with IoFailure in the middle of IN, after `text` reached the sink: R7 is linked, and no
other register, no flag and no cell has changed (60_exceptions.md R234). -/
def InFailed (text : List Byte) (s t : State) : Prop :=
  t.run = .halted .ioFailure ∧ t.output = s.output ++ text ∧ t.reg 7 = s.pc ∧ SameRegsBut 7 s t ∧
    t.cond = s.cond ∧ t.pc = s.pc ∧ SameCells s t ∧ t.params = s.params

/-- `t` is `s` held in a console read with one draw spent; nothing else differs. -/
def HeldIn (service : HeldRead) (s t : State) : Prop :=
  t.hold = some service ∧ SameRegs s t ∧ t.cond = s.cond ∧ t.pc = s.pc ∧ t.run = s.run ∧
    SameCells s t ∧ t.params = s.params ∧ t.input = s.input ∧ t.taken = s.taken ∧
    t.inputDraws = s.inputDraws.tail

end Sys2Proof.Machine

open Sys2Proof Sys2Proof.Machine

/-! ### Encoding -/

/-- Decoding an encoded instruction gives it back, for every instruction and every operand value its
encoding admits. The opcode values are the spec's decision D1 (log 1). -/
def Obligations.DecodeOfEncodeIsTheInstruction : Prop :=
  ∀ i : Instr, i.wellFormed = true → decode (encode i) = i

/-- Every word decodes to a well-formed instruction, whose own encoding is the word with the bits no
format uses cleared: those bits are ignored (R98 is the spec's decision D2, D3; log 2). The used bits go by
opcode, fourteen of whose values are D1 (log 1). A word the decoder rejects counts as the instruction
trapInvalid, the model's choice (log 10): by R99 it is a DecodeFailure. -/
def Obligations.DecodeReadsExactlyTheUsedBits : Prop :=
  ∀ w : Word, (decode w).wellFormed = true ∧ encode (decode w) = w &&& usedBits w ∧
    decode w = decode (w &&& usedBits w)

/-- R12: the low N bits as a two's-complement number, by sign bit or by mask. -/
def Obligations.SignExtensionReadsLowBitsAsSigned : Prop :=
  ∀ n ∈ [5, 6, 9, 11], ∀ v : Word,
    (sext n v).toInt = (v.setWidth n).toInt ∧
    (v.getLsbD (n - 1) = true → sext n v = v ||| ~~~(BitVec.ofNat 16 (2 ^ n - 1))) ∧
    (v.getLsbD (n - 1) = false → sext n v = v &&& BitVec.ofNat 16 (2 ^ n - 1))

/-- R95: of the opcode family TRAP (1111 by the spec's D1, log 1), exactly the codes 0x20 to 0x25 decode,
each to its service. -/
def Obligations.TrapCodesNameSixServices : Prop :=
  ∀ w : Word, w.extractLsb' 12 4 = 0b1111#4 →
    (w.extractLsb' 0 8 = 0x20#8 → decodeWord w = .ok .trapGetc) ∧
    (w.extractLsb' 0 8 = 0x21#8 → decodeWord w = .ok .trapOut) ∧
    (w.extractLsb' 0 8 = 0x22#8 → decodeWord w = .ok .trapPuts) ∧
    (w.extractLsb' 0 8 = 0x23#8 → decodeWord w = .ok .trapIn) ∧
    (w.extractLsb' 0 8 = 0x24#8 → decodeWord w = .ok .trapPutsp) ∧
    (w.extractLsb' 0 8 = 0x25#8 → decodeWord w = .ok .trapHalt) ∧
    ((w.extractLsb' 0 8).toNat < 0x20 ∨ 0x25 < (w.extractLsb' 0 8).toNat →
      decodeWord w = .error .decodeFailure)

/-- R92 and R93: opcode 1000 decodes as RTI and opcode 1101 as the RESERVED sentinel, whatever the other
bits (the spec's D2, log 2). -/
def Obligations.OpcodesOfRtiAndReserved : Prop :=
  ∀ low : BitVec 12, decodeWord (word (0b1000#4 ++ low)) = .ok .rti ∧ decodeWord (word (0b1101#4 ++ low)) = .ok .reserved

/-- The formats of R83 to R91, field by field, the ignored bits `x` arbitrary. The opcode values are D1
(log 1), the ignored bits D2 (log 2). -/
def Obligations.FormatsPlaceEachField : Prop :=
  ∀ (a b c : BitVec 3) (x2 : BitVec 2) (x3 : BitVec 3) (x6 : BitVec 6) (i5 : BitVec 5) (o9 : BitVec 9)
    (o6 : BitVec 6) (o11 : BitVec 11) (n z p : Bool),
    decode (word (0b0001#4 ++ a ++ b ++ 0#1 ++ x2 ++ c)) = .addReg (regOf a) (regOf b) (regOf c) ∧
    decode (word (0b0001#4 ++ a ++ b ++ 1#1 ++ i5)) = .addImm (regOf a) (regOf b) (i5.signExtend 16) ∧
    decode (word (0b0101#4 ++ a ++ b ++ 0#1 ++ x2 ++ c)) = .andReg (regOf a) (regOf b) (regOf c) ∧
    decode (word (0b0101#4 ++ a ++ b ++ 1#1 ++ i5)) = .andImm (regOf a) (regOf b) (i5.signExtend 16) ∧
    decode (word (0b1001#4 ++ a ++ b ++ x6)) = .not (regOf a) (regOf b) ∧
    decode (word (0b0000#4 ++ BitVec.ofBool n ++ BitVec.ofBool z ++ BitVec.ofBool p ++ o9))
      = .br n z p (o9.signExtend 16) ∧
    (b ≠ 7 → decode (word (0b1100#4 ++ x3 ++ b ++ x6)) = .jmp (regOf b)) ∧
    decode (word (0b1100#4 ++ x3 ++ 0b111#3 ++ x6)) = .ret ∧
    decode (word (0b0100#4 ++ 1#1 ++ o11)) = .jsr (o11.signExtend 16) ∧
    decode (word (0b0100#4 ++ 0#1 ++ x2 ++ b ++ x6)) = .jsrr (regOf b) ∧
    decode (word (0b0010#4 ++ a ++ o9)) = .ld (regOf a) (o9.signExtend 16) ∧
    decode (word (0b1010#4 ++ a ++ o9)) = .ldi (regOf a) (o9.signExtend 16) ∧
    decode (word (0b1110#4 ++ a ++ o9)) = .lea (regOf a) (o9.signExtend 16) ∧
    decode (word (0b0011#4 ++ a ++ o9)) = .st (regOf a) (o9.signExtend 16) ∧
    decode (word (0b1011#4 ++ a ++ o9)) = .sti (regOf a) (o9.signExtend 16) ∧
    decode (word (0b0110#4 ++ a ++ b ++ o6)) = .ldr (regOf a) (regOf b) (o6.signExtend 16) ∧
    decode (word (0b0111#4 ++ a ++ b ++ o6)) = .str (regOf a) (regOf b) (o6.signExtend 16)

/-- Words written out from the formats decode to the instructions they stand for under the opcode values of
the spec's D1 (log 1); that of RTI alone is its source's. -/
def Obligations.SampleWordsDecode : Prop :=
  decode 0b0001000001000010 = .addReg 0 1 2 ∧ decode 0b0101111111111111 = .andImm 7 7 0xFFFF ∧
    decode 0b0000100111111110 = .br true false false 0xFFFE ∧ decode 0b1100000010000000 = .jmp 2 ∧
    decode 0b0110010011100000 = .ldr 2 3 0xFFE0 ∧ decode 0b1011110000000001 = .sti 6 0x0001 ∧
    decode 0b1000000000000000 = .rti ∧ decode 0b1111000000100010 = .trapPuts

/-! ### The ALU and the flags -/

/-- R126, the function setcc on a value just written to a register: it is classified as a signed number, and
exactly one of Negative, Zero and Positive is active. -/
def Obligations.FlagsClassifySignedResult : Prop :=
  ∀ (r : Reg) (v : Word) (s : State),
    Classifies (writeResult r v s).cond ((writeResult r v s).reg r) ∧ (writeResult r v s).reg r = v ∧
      (writeResult r v s).cond ≠ .unset

/-- After every flag-setting instruction (R126, R127) the flags classify the signed value of its result
register. One whose step a failure ends or a read holds has set no flags yet: those are the states that
are halted (log 18) or held (log 8). -/
def Obligations.EveryFlagSetterClassifiesItsResult : Prop :=
  ∀ (i : Instr) (r : Reg) (s t : State), flagsFrom i = some r → exec i s = .next t → t.Fetching →
    Classifies t.cond (t.reg r) ∧ t.cond ≠ .unset

/-- R140, R141: ADD in both forms gives the sum modulo 65536 and the flags of it, and changes nothing else. -/
def Obligations.AddGivesSumModulo65536 : Prop :=
  ∀ (dr sr1 : Reg) (s : State),
    (∀ sr2, ∃ t v, exec (.addReg dr sr1 sr2) s = .next t ∧ ResultIn dr v s t ∧
      v.toNat = ((s.reg sr1).toNat + (s.reg sr2).toNat) % 65536) ∧
    (∀ imm : Word, ∃ t v, exec (.addImm dr sr1 imm) s = .next t ∧ ResultIn dr v s t ∧
      v.toNat = ((s.reg sr1).toNat + imm.toNat) % 65536)

/-- R142, R143: AND in both forms gives the bitwise conjunction and the flags of it, and changes nothing
else. -/
def Obligations.AndGivesBitwiseConjunction : Prop :=
  ∀ (dr sr1 : Reg) (s : State),
    (∀ sr2, ∃ t v, exec (.andReg dr sr1 sr2) s = .next t ∧ ResultIn dr v s t ∧
      ∀ k, v.getLsbD k = ((s.reg sr1).getLsbD k && (s.reg sr2).getLsbD k)) ∧
    (∀ imm : Word, ∃ t v, exec (.andImm dr sr1 imm) s = .next t ∧ ResultIn dr v s t ∧
      ∀ k, v.getLsbD k = ((s.reg sr1).getLsbD k && imm.getLsbD k))

/-- R144: NOT gives the 16-bit complement and the flags of it, and changes nothing else. -/
def Obligations.NotGivesComplement : Prop :=
  ∀ (dr sr : Reg) (s : State), ∃ t v, exec (.not dr sr) s = .next t ∧ ResultIn dr v s t ∧
    v.toNat = 65535 - (s.reg sr).toNat

/-- R148 (derived by the spec): NOT, ADD #1 and ADD compute the difference modulo 65536, where the
scratch register is not the minuend's. -/
def Obligations.SubtractionIdiomComputesDifference : Prop :=
  ∀ (d a b t : Reg) (s : State), t ≠ a → ∃ s1 s2 s3,
    exec (.not t b) s = .next s1 ∧ exec (.addImm t t 1) s1 = .next s2 ∧ exec (.addReg d a t) s2 = .next s3 ∧
      s3.reg d = s.reg a - s.reg b ∧ Classifies s3.cond (s.reg a - s.reg b)

/-! ### Control transfer -/

/-- R160: BR is taken exactly when its bits meet the condition state; the target wraps; nothing but pc
changes. -/
def Obligations.BranchTakenIffBitsMeetCondition : Prop :=
  ∀ (n z p : Bool) (offset : Word) (s : State),
    let taken := (n = true ∧ s.cond = .negative) ∨ (z = true ∧ s.cond = .zero) ∨ (p = true ∧ s.cond = .positive)
    ∃ t, exec (.br n z p offset) s = .next t ∧
      (taken → t.pc.toNat = (s.pc.toNat + offset.toNat) % 65536) ∧ (¬ taken → t.pc = s.pc) ∧
      SameRegs s t ∧ t.cond = s.cond ∧ SameCells s t ∧ SameControl s t ∧ SameInput s t ∧ SameOutput s t

/-- R161 and R162 (derived by the spec): BR with no bit set, or while cond is Unset, changes nothing. The
branch test is the intersection with the mask nzp, the spec's representation D5 (log 21). -/
def Obligations.BranchWithoutBitsOrFlagsIsNoOp : Prop :=
  ∀ (n z p : Bool) (offset : Word) (s : State),
    ((n = false ∧ z = false ∧ p = false) ∨ s.cond = .unset → exec (.br n z p offset) s = .next s) ∧
    (branchTaken n z p s.cond = true ↔
      (BitVec.ofBool n ++ BitVec.ofBool z ++ BitVec.ofBool p : BitVec 3) &&& s.cond.mask ≠ 0)

/-- R163, R165, R166: JMP and RET load pc from a register; JSR saves the advanced pc in R7 and jumps to
pc + offset; nothing else changes. -/
def Obligations.JumpsLoadPcAndJsrLinks : Prop :=
  ∀ s : State,
    (∀ baseR, ∃ t, exec (.jmp baseR) s = .next t ∧ t.pc = s.reg baseR ∧
      SameRegs s t ∧ t.cond = s.cond ∧ SameCells s t ∧ SameControl s t ∧ SameInput s t ∧ SameOutput s t) ∧
    (∃ t, exec .ret s = .next t ∧ t.pc = s.reg 7 ∧
      SameRegs s t ∧ t.cond = s.cond ∧ SameCells s t ∧ SameControl s t ∧ SameInput s t ∧ SameOutput s t) ∧
    (∀ offset, ∃ t, exec (.jsr offset) s = .next t ∧ t.reg 7 = s.pc ∧
      t.pc.toNat = (s.pc.toNat + offset.toNat) % 65536 ∧
      SameRegsBut 7 s t ∧ t.cond = s.cond ∧ SameCells s t ∧ SameControl s t ∧ SameInput s t ∧ SameOutput s t)

/-- JSRR saves the advanced pc in R7 and jumps to the base register; through R7 itself the parameter
JSRR_LINK_FIRST (the spec's D18, log 5) says which value of R7 is the target. -/
def Obligations.JsrrLinksAndJumpsThroughBase : Prop :=
  ∀ (baseR : Reg) (s : State), ∃ t, exec (.jsrr baseR) s = .next t ∧ t.reg 7 = s.pc ∧
    (baseR ≠ 7 → t.pc = s.reg baseR) ∧
    (baseR = 7 → s.params.jsrrLinkFirst = true → t.pc = s.pc) ∧
    (baseR = 7 → s.params.jsrrLinkFirst = false → t.pc = s.reg 7) ∧
    SameRegsBut 7 s t ∧ t.cond = s.cond ∧ SameCells s t ∧ SameControl s t ∧ SameInput s t ∧ SameOutput s t

/-! ### Loads and stores -/

/-- LD and LDR (R180, R182) load the word at the wrapped address (the spec's D8, log 15) and set the flags
from it; at 0xFE00 the poll decides the word (D10, D11; log 13), and a failing poll ends the step with
nothing loaded and no cell changed (D23, log 18). -/
def Obligations.LoadsReadTheAddressedCell : Prop :=
  ∀ (dr : Reg) (offset : Word) (s : State),
    (pcRelative offset s).toNat = (s.pc.toNat + offset.toNat) % 65536 ∧
    LoadsCell (.ld dr offset) dr (pcRelative offset s).toNat s ∧
    ∀ baseR, (baseOffset baseR offset s).toNat = ((s.reg baseR).toNat + offset.toNat) % 65536 ∧
      LoadsCell (.ldr dr baseR offset) dr (baseOffset baseR offset s).toNat s

/-- LDI (R181) loads through its pointer cell, whose address wraps (the spec's D8, log 15). Both reads are
real: a pointer cell at 0xFE00 polls, and so does a pointer that holds 0xFE00 (D10, D11; log 13). A
failing poll ends the step with nothing loaded and no cell changed (D23, log 18). -/
def Obligations.LdiLoadsThroughItsPointerCell : Prop :=
  ∀ (dr : Reg) (offset : Word) (s : State),
    let ptr := (pcRelative offset s).toNat
    ptr = (s.pc.toNat + offset.toNat) % 65536 ∧
    (ptr ≠ 0xFE00 → LoadsCell (.ldi dr offset) dr (s.cell ptr).toNat s) ∧
    (ptr = 0xFE00 → s.inputDraw ≠ .fails → ∃ a u t, memRead 0xFE00 s = .ok a u ∧
      (a = 0x8000 ∨ a = 0x0000) ∧ exec (.ldi dr offset) s = .next t ∧ ResultIn dr (u.cell a.toNat) u t) ∧
    (ptr = 0xFE00 → s.inputDraw = .fails → ∃ t, exec (.ldi dr offset) s = .next t ∧ InputFailed s t)

/-- R183: LEA gives the wrapped address itself and its flags, and reads no memory, 0xFE00 included. -/
def Obligations.LeaGivesTheAddressItself : Prop :=
  ∀ (dr : Reg) (offset : Word) (s : State), ∃ t v, exec (.lea dr offset) s = .next t ∧ ResultIn dr v s t ∧
    v.toNat = (s.pc.toNat + offset.toNat) % 65536

/-- ST and STR (R184, R186) store the register at the wrapped address (the spec's D8, log 15); no other cell,
register or flag changes, and no address polls or has another effect (D14, log 14). -/
def Obligations.StoresWriteOneCell : Prop :=
  ∀ (sr : Reg) (offset : Word) (s : State),
    ((pcRelative offset s).toNat = (s.pc.toNat + offset.toNat) % 65536 ∧
      ∃ t, exec (.st sr offset) s = .next t ∧ StoredAt (pcRelative offset s).toNat (s.reg sr) s t) ∧
    ∀ baseR, (baseOffset baseR offset s).toNat = ((s.reg baseR).toNat + offset.toNat) % 65536 ∧
      ∃ t, exec (.str sr baseR offset) s = .next t ∧ StoredAt (baseOffset baseR offset s).toNat (s.reg sr) s t

/-- STI (R185) stores through its pointer cell, whose address wraps (the spec's D8, log 15). A pointer cell at
0xFE00 polls, and the store then goes to the polled status value (D10, D11; log 13); the store itself is
plain and never polls (D14, log 14). A failing poll ends the step with no cell changed (D23, log 18). -/
def Obligations.StiStoresThroughItsPointerCell : Prop :=
  ∀ (sr : Reg) (offset : Word) (s : State),
    let ptr := (pcRelative offset s).toNat
    ptr = (s.pc.toNat + offset.toNat) % 65536 ∧
    (ptr ≠ 0xFE00 → ∃ t, exec (.sti sr offset) s = .next t ∧ StoredAt (s.cell ptr).toNat (s.reg sr) s t) ∧
    (ptr = 0xFE00 → s.inputDraw ≠ .fails → ∃ a u t, memRead 0xFE00 s = .ok a u ∧
      (a = 0x8000 ∨ a = 0x0000) ∧ exec (.sti sr offset) s = .next t ∧ StoredAt a.toNat (s.reg sr) u t) ∧
    (ptr = 0xFE00 → s.inputDraw = .fails → ∃ t, exec (.sti sr offset) s = .next t ∧ InputFailed s t)

/-- R53: MemRead checks the bound, polls at 0xFE00 and returns the cell as the poll left it, and reads any
other cell without a side effect. -/
def Obligations.MemReadChecksBoundThenPolls : Prop :=
  ∀ (addr : Nat) (s : State),
    (65536 ≤ addr → ∃ t, memRead addr s = .ended t ∧ EndedWith (.outOfBoundsAccess addr) s t) ∧
    (addr < 65536 → addr ≠ 0xFE00 → memRead addr s = .ok (s.cell addr) s) ∧
    (addr = 0xFE00 → ∀ u, keyboardPoll s = .ok () u → memRead addr s = .ok (u.cell addr) u) ∧
    (addr = 0xFE00 → ∀ u, keyboardPoll s = .ended u → memRead addr s = .ended u)

/-- The poll of R55, read as the spec's decisions D11 to D13 (log 13): a byte there gives status 0x8000 and
the byte in the data cell, and is taken exactly if KBD_POLL_CONSUMES (the list of taken bytes is log 7);
no byte gives status 0 and leaves the data cell; a failure changes no cell (D23, log 18). -/
def Obligations.KeyboardPollUpdatesItsTwoCells : Prop :=
  ∀ s : State,
    (∀ b, s.available = some b → ∃ t, keyboardPoll s = .ok () t ∧
      t.cell 0xFE00 = 0x8000 ∧ (t.cell 0xFE02).toNat = b.toNat ∧
      (∀ a, a ≠ 0xFE00 → a ≠ 0xFE02 → t.cell a = s.cell a) ∧
      (s.params.kbdPollConsumes = true → t.input = s.input.tail ∧ t.taken = s.taken ++ [b]) ∧
      (s.params.kbdPollConsumes = false → t.input = s.input ∧ t.taken = s.taken) ∧
      t.inputDraws = s.inputDraws.tail ∧ SameRegs s t ∧ t.cond = s.cond ∧ t.pc = s.pc ∧
      SameControl s t ∧ SameOutput s t) ∧
    (s.available = none → s.inputDraw ≠ .fails → ∃ t, keyboardPoll s = .ok () t ∧
      t.cell 0xFE00 = 0x0000 ∧ SameCellsBut 0xFE00 s t ∧ t.input = s.input ∧ t.taken = s.taken ∧
      t.inputDraws = s.inputDraws.tail ∧ SameRegs s t ∧ t.cond = s.cond ∧ t.pc = s.pc ∧
      SameControl s t ∧ SameOutput s t) ∧
    (s.inputDraw = .fails → ∃ t, keyboardPoll s = .ended t ∧ InputFailed s t)

/-! ### Traps and system instructions -/

/-- Every service leaves the advanced pc in R7 (R201), and none changes pc (R209), whatever the host answers:
also where GETC or IN has no byte and holds (the spec's D22; that a held step answers a next state is
log 8), and where the console fails, which keeps R7 as written (D23, log 18). -/
def Obligations.TrapServicesSaveTheAdvancedPc : Prop :=
  ∀ i ∈ trapServices, ∀ s : State, ∃ t, exec i s = .next t ∧ t.reg 7 = s.pc ∧ t.pc = s.pc

/-- GETC (R202) takes the next byte, zero-extended, into R0 with its flags (never Negative), writes no output
and touches no cell; a failing read leaves R0, the flags and the stream, with R7 written (the spec's D23,
log 18). With no byte it holds: HeldReadWaitsForItsByte. -/
def Obligations.GetcTakesOneByte : Prop :=
  ∀ s : State,
    (∀ b rest, s.inputDraw = .ready → s.input = b :: rest →
      ∃ t, exec .trapGetc s = .next t ∧ ByteTaken b s t ∧ t.reg 7 = s.pc ∧ SameOutput s t) ∧
    (s.inputDraw = .fails → ∃ t, exec .trapGetc s = .next t ∧ InputFailed (s.setReg 7 s.pc) t)

/-- IN with the parameters IN_PROMPT and IN_ECHO (the spec's D20, D21; log 17): the prompt, the byte as
GETC takes it, and the echo. With no byte it holds: HeldReadWaitsForItsByte. With a failure:
InKeepsWhatPrecedesItsFailure. -/
def Obligations.InPromptsReadsAndEchoes : Prop :=
  ∀ (s : State) (b : Byte) (rest : List Byte), s.inputDraw = .ready → s.input = b :: rest →
    let text := s.params.inPrompt ++ (if s.params.inEcho then [b] else [])
    SinkAccepts s text.length →
    ∃ t, exec .trapIn s = .next t ∧ ByteTaken b s t ∧ t.reg 7 = s.pc ∧
      t.output = s.output ++ text ∧ t.outputDraws = s.outputDraws.drop text.length

/-- IN whose console fails keeps exactly what the statements of R205 before the failure did (the spec's D23,
log 18; prompt and echo are D20, log 17). A prompt byte that fails: R7 and the bytes before it. The read
that fails: R7 and the prompt. The echo that fails: R7, the prompt, and the byte taken, but R0 and the flags
not yet written. -/
def Obligations.InKeepsWhatPrecedesItsFailure : Prop :=
  ∀ s : State,
    (∀ k, k < s.params.inPrompt.length → SinkAccepts s k → s.outputDraws[k]? = some .fails →
      ∃ t, exec .trapIn s = .next t ∧ InFailed (s.params.inPrompt.take k) s t ∧ SameInput s t ∧
        t.hold = s.hold ∧ t.outputDraws = s.outputDraws.drop (k + 1)) ∧
    (SinkAccepts s s.params.inPrompt.length → s.inputDraw = .fails →
      ∃ t, exec .trapIn s = .next t ∧ InFailed s.params.inPrompt s t ∧ t.input = s.input ∧
        t.taken = s.taken ∧ t.inputDraws = s.inputDraws.tail ∧ t.hold = none ∧
        t.outputDraws = s.outputDraws.drop s.params.inPrompt.length) ∧
    (∀ b rest, SinkAccepts s s.params.inPrompt.length → s.inputDraw = .ready → s.input = b :: rest →
      s.params.inEcho = true → s.outputDraws[s.params.inPrompt.length]? = some .fails →
      ∃ t, exec .trapIn s = .next t ∧ InFailed s.params.inPrompt s t ∧ t.input = rest ∧
        t.taken = s.taken ++ [b] ∧ t.inputDraws = s.inputDraws.tail ∧ t.hold = none ∧
        t.outputDraws = s.outputDraws.drop (s.params.inPrompt.length + 1))

/-- A read that finds no byte holds its step (R129 with the spec's D22; the hold as state is log 8): R7 is
written, R0 is not; a held machine's steps change only the draws until the host delivers a byte or fails.
A byte ends the service as if it had been there at once, the prompt not written again. A failure of the
read, or of IN's echo once the byte is taken, halts the machine, no longer held, with R0 and the flags
unwritten (D23, log 18; prompt and echo are D20, log 17). -/
def Obligations.HeldReadWaitsForItsByte : Prop :=
  (∀ s : State, s.available = none → s.inputDraw ≠ .fails →
    (∃ t, exec .trapGetc s = .next t ∧ HeldIn .getc (s.setReg 7 s.pc) t ∧ SameOutput s t) ∧
    (SinkAccepts s s.params.inPrompt.length →
      ∃ t, exec .trapIn s = .next t ∧ HeldIn .inService (s.setReg 7 s.pc) t ∧
        t.output = s.output ++ s.params.inPrompt) ∧
    ∀ service, s.run = .running → s.hold = some service →
      ∃ t, step s = .next t ∧ HeldIn service s t ∧ SameOutput s t) ∧
  ∀ (s : State) (service : HeldRead), s.run = .running → s.hold = some service →
    (∀ b rest, s.inputDraw = .ready → s.input = b :: rest →
      (service = .inService → s.params.inEcho = true → s.outputDraw = .accepts) →
      ∃ t, step s = .next t ∧ ByteTaken b s t ∧ t.reg 7 = s.reg 7 ∧
        t.output = s.output ++ (if service = .inService ∧ s.params.inEcho = true then [b] else [])) ∧
    (s.inputDraw = .fails → ∃ t, step s = .next t ∧ InputFailed s t ∧ t.hold = none) ∧
    (∀ b rest, s.inputDraw = .ready → s.input = b :: rest →
      service = .inService → s.params.inEcho = true → s.outputDraw = .fails →
      ∃ t, step s = .next t ∧ t.run = .halted .ioFailure ∧ t.hold = none ∧ t.output = s.output ∧
        t.input = rest ∧ t.taken = s.taken ++ [b] ∧ SameRegs s t ∧ t.cond = s.cond ∧ t.pc = s.pc ∧
        SameCells s t ∧ t.params = s.params ∧ t.inputDraws = s.inputDraws.tail ∧
        t.outputDraws = s.outputDraws.tail)

/-- OUT (R203) emits the low byte of R0 and leaves R0; a failing write keeps R7 written and emits nothing (the
spec's D23, log 18). -/
def Obligations.OutEmitsTheLowByteOfR0 : Prop :=
  ∀ s : State,
    (s.outputDraw = .accepts → ∃ t, exec .trapOut s = .next t ∧
      Printed [(s.reg 0).extractLsb' 0 8] s t ∧ t.run = s.run) ∧
    (s.outputDraw = .fails → ∃ t, exec .trapOut s = .next t ∧ t.run = .halted .ioFailure ∧
      t.output = s.output ∧ t.reg 7 = s.pc ∧ SameRegsBut 7 s t ∧ t.cond = s.cond ∧ t.pc = s.pc ∧ SameCells s t)

/-- PUTS emits the low byte of each cell from the address in R0 up to, not including, the first cell of
0x0000 (all 16 bits: the spec's D19, log 16); a walk that meets no such cell ends at address 65536 with
OutOfBoundsAccess, its bytes written (D9, log 15). -/
def Obligations.PutsEmitsTheStringAtR0 : Prop :=
  ∀ (s : State) (n : Nat), PlainText s (s.reg 0).toNat n → SinkAccepts s n →
    ((s.reg 0).toNat + n < 65536 → s.cell ((s.reg 0).toNat + n) = 0x0000 → (s.reg 0).toNat + n ≠ 0xFE00 →
      ∃ t, exec .trapPuts s = .next t ∧ Printed (putsText s (s.reg 0).toNat n) s t ∧ t.run = s.run) ∧
    ((s.reg 0).toNat + n = 65536 →
      ∃ t, exec .trapPuts s = .next t ∧ Printed (putsText s (s.reg 0).toNat n) s t ∧
        t.run = .halted (.outOfBoundsAccess 65536))

/-- PUTSP emits for each cell its low byte and then its high byte if that is not zero, up to the first cell
of 0x0000; the end of memory as for PUTS (the spec's D9, log 15). -/
def Obligations.PutspEmitsThePackedStringAtR0 : Prop :=
  ∀ (s : State) (n : Nat), PlainText s (s.reg 0).toNat n →
    SinkAccepts s (putspText s (s.reg 0).toNat n).length →
    ((s.reg 0).toNat + n < 65536 → s.cell ((s.reg 0).toNat + n) = 0x0000 → (s.reg 0).toNat + n ≠ 0xFE00 →
      ∃ t, exec .trapPutsp s = .next t ∧ Printed (putspText s (s.reg 0).toNat n) s t ∧ t.run = s.run) ∧
    ((s.reg 0).toNat + n = 65536 →
      ∃ t, exec .trapPutsp s = .next t ∧ Printed (putspText s (s.reg 0).toNat n) s t ∧
        t.run = .halted (.outOfBoundsAccess 65536))

/-- PUTS and PUTSP are the loops of R204 and R206, for every memory and every host: there is a walk that
reads a cell by MemRead (which may poll or fail), stops at 0x0000, else writes and goes on at the next
address, and raises at 65536 (the spec's D9, D10, D19; logs 13, 15, 16). -/
def Obligations.StringServicesFollowTheirLoops : Prop :=
  (∃ walk : Nat → State → Phase Unit,
    (∀ s, exec .trapPuts s = (walk (s.reg 0).toNat (s.setReg 7 s.pc)).outcome) ∧
    (∀ s, walk 65536 s = .ended (raise (.outOfBoundsAccess 65536) s)) ∧
    ∀ a s, a < 65536 → walk a s = (memRead a s).andThen fun c s =>
      if c = 0x0000 then .ok () s
      else (consoleWrite (c.extractLsb' 0 8) s).andThen fun _ s => walk (a + 1) s) ∧
  (∃ walk : Nat → State → Phase Unit,
    (∀ s, exec .trapPutsp s = (walk (s.reg 0).toNat (s.setReg 7 s.pc)).outcome) ∧
    (∀ s, walk 65536 s = .ended (raise (.outOfBoundsAccess 65536) s)) ∧
    ∀ a s, a < 65536 → walk a s = (memRead a s).andThen fun c s =>
      if c = 0x0000 then .ok () s
      else (consoleWrite (c.extractLsb' 0 8) s).andThen fun _ s =>
        if c.extractLsb' 8 8 = 0 then walk (a + 1) s
        else (consoleWrite (c.extractLsb' 8 8) s).andThen fun _ s => walk (a + 1) s)

/-- R207: HALT halts the machine with reason Halt, R7 written, pc, cond, the other registers, memory and
input unchanged. (That it writes no output, the spec's D20, is a clause of OnlyFourServicesWriteOutput.) -/
def Obligations.HaltStopsTheMachine : Prop :=
  ∀ s : State, ∃ t, exec .trapHalt s = .next t ∧ t.run = .halted .halt ∧ t.reg 7 = s.pc ∧
    SameRegsBut 7 s t ∧ t.cond = s.cond ∧ t.pc = s.pc ∧ SameCells s t ∧ t.hold = s.hold ∧
    t.params = s.params ∧ SameInput s t

/-- R221: RTI has no effect at all. -/
def Obligations.RtiHasNoEffect : Prop := ∀ s : State, exec .rti s = .next s

/-- R222: executing RESERVED raises IllegalInstruction and changes nothing else, and a step on a word of
opcode 1101 records that word, with pc one past it. -/
def Obligations.ReservedRaisesIllegalInstruction : Prop :=
  (∀ s : State, ∃ t w, exec .reserved s = .next t ∧ EndedWith (.illegalInstruction w) s t) ∧
  ∀ (s : State) (low : BitVec 12), s.Fetching → s.pc.toNat ≠ 0xFE00 → s.cell s.pc.toNat = word (0b1101#4 ++ low) →
    ∃ t, step s = .next t ∧ EndedWith (.illegalInstruction (word (0b1101#4 ++ low))) (s.setPc (s.pc + 1)) t

/-- A word the decoder rejects (R231) raises DecodeFailure with that word, pc one past it, and nothing else
changed: R7 is not written. The first clause is the row of invalid trap codes, that failure as an
instruction, which is the model's choice (log 10). -/
def Obligations.RejectedWordRaisesDecodeFailure : Prop :=
  (∀ (code : Byte) (s : State), ∃ t w, exec (.trapInvalid code) s = .next t ∧ EndedWith (.decodeFailure w) s t) ∧
  ∀ (s : State) (w : Word), s.Fetching → s.pc.toNat ≠ 0xFE00 → s.cell s.pc.toNat = w →
    decodeWord w = .error .decodeFailure →
    ∃ t, step s = .next t ∧ EndedWith (.decodeFailure w) (s.setPc (s.pc + 1)) t

/-! ### The cycle -/

/-- A step (R120) is enabled only while the machine runs; it fetches by MemRead, advances pc by one, wrapping,
and executes what the word decodes to; a rejected word, a RESERVED word and a HALT end the run. A fetch
that ends the step, the poll at 0xFE00 failing, leaves pc (R121 is the spec's D10, log 13; the failure D23,
log 18). -/
def Obligations.StepRunsTheDecodedInstruction : Prop :=
  ∀ s : State, s.Fetching →
    (s.pc.toNat ≠ 0xFE00 → ∀ i, decodeWord (s.cell s.pc.toNat) = .ok i →
      step s = exec i (s.setPc (s.pc + 1))) ∧
    (∀ w u i, memRead s.pc.toNat s = .ok w u → decodeWord w = .ok i → step s = exec i (u.setPc (u.pc + 1))) ∧
    (∀ w u, memRead s.pc.toNat s = .ok w u → decodeWord w = .error .decodeFailure →
      step s = .next (raise (.decodeFailure w) (u.setPc (u.pc + 1)))) ∧
    (∀ u, memRead s.pc.toNat s = .ended u → step s = .next u ∧ u.pc = s.pc) ∧
    (∀ w u, memRead s.pc.toNat s = .ok w u → decodeWord w = .ok .reserved →
      ∃ t x, step s = .next t ∧ t.run = .halted (.illegalInstruction x)) ∧
    (∀ w u, memRead s.pc.toNat s = .ok w u → decodeWord w = .ok .trapHalt →
      ∃ t, step s = .next t ∧ t.run = .halted .halt) ∧
    ∀ s' r t, State.run s' = .halted r → step s' ≠ .next t

/-- R122: pc advances by one, wrapping, before the instruction executes; PC-relative targets and saved link
values use that pc; and an instruction that does not write pc leaves it there. -/
def Obligations.PcIsTheFetchedAddressPlusOne : Prop :=
  ∀ (s t u : State) (w : Word), s.Fetching → memRead s.pc.toNat s = .ok w u → step s = .next t →
    (∃ v, v = u.setPc (u.pc + 1) ∧ step s = exec (decode w) v ∧ v.pc.toNat = (s.pc.toNat + 1) % 65536 ∧
      ∀ offset, (pcRelative offset v).toNat = (s.pc.toNat + 1 + offset.toNat) % 65536) ∧
    ((∃ offset, decode w = .jsr offset) ∨ (∃ baseR, decode w = .jsrr baseR) ∨ decode w ∈ trapServices →
      (t.reg 7).toNat = (s.pc.toNat + 1) % 65536) ∧
    (¬ TransfersControl (decode w) → t.pc.toNat = (s.pc.toNat + 1) % 65536)

/-- No instruction is refused or faults, in any state and with any operands, and every step of a machine
that has not halted answers a next state: a termination is a state (R17, R237), a hold is one (log 8, 9). -/
def Obligations.EveryInstructionAnswersANextState : Prop :=
  (∀ (i : Instr) (s : State), ∃ t, exec i s = .next t) ∧
    ∀ s : State, s.run = .running → ∃ t, step s = .next t

/-- R30: nothing leaves Halted: no step is taken and no other state is reached. HALT leads there. -/
def Obligations.HaltedIsFinal : Prop :=
  ∀ (s : State) (r : Reason), s.run = .halted r → (∀ t, step s ≠ .next t) ∧ (∀ t, Reaches s t → t = s) ∧
    ∀ s', ∃ t, exec .trapHalt s' = .next t ∧ ∃ r', t.run = .halted r'

/-- A step that halts has the cause its reason names (R230, whose enumeration is the spec's D24). A held step
(log 8) halts only with IoFailure, of its read or of IN's echo (D23, log 18; D20, log 17). A fetch that
ends the step is a failing poll at pc 0xFE00 (D10, log 13). After a fetch each reason has its instruction
(the walk's bound is D9, log 15), and IoFailure a failing draw. -/
def Obligations.EveryHaltHasItsCause : Prop :=
  ∀ (s t : State) (r : Reason), step s = .next t → t.run = .halted r →
    (s.hold = some .getc → r = .ioFailure ∧ s.inputDraw = .fails) ∧
    (s.hold = some .inService → r = .ioFailure ∧
      (s.inputDraw = .fails ∨ s.params.inEcho = true ∧ s.outputDraw = .fails)) ∧
    (∀ u, s.hold = none → memRead s.pc.toNat s = .ended u →
      r = .ioFailure ∧ s.pc.toNat = 0xFE00 ∧ s.inputDraw = .fails) ∧
    ∀ w u, s.hold = none → memRead s.pc.toNat s = .ok w u →
      (r = .halt → decode w = .trapHalt) ∧
      (∀ x, r = .decodeFailure x → x = w ∧ decodeWord w = .error .decodeFailure) ∧
      (∀ x, r = .illegalInstruction x → x = w ∧ decode w = .reserved) ∧
      (∀ a, r = .outOfBoundsAccess a → a = 65536 ∧ (decode w = .trapPuts ∨ decode w = .trapPutsp)) ∧
      (r = .ioFailure → .fails ∈ s.inputDraws ∨ .fails ∈ s.outputDraws)

/-! ### Rules about the whole machine -/

/-- Construction gives every piece of the core's state the value of R38's table, for any parameters. Those of
pc and the registers are the parameters PC_START and REG_INIT (the spec's D7, D6), which the model holds
in a field (log 6). -/
def Obligations.ConstructionSetsEveryPieceOfState : Prop :=
  ∀ p : Params,
    let s := State.construct p
    s.run = .running ∧ s.pc = p.pcStart ∧ s.cond = .unset ∧ (∀ r, s.reg r = p.regInit.get r) ∧
      (∀ a, s.cell a = 0x0000) ∧ s.output = []

/-- The invariant holds at reset, at any construction, and after any image load. -/
def Obligations.InvariantHoldsAtLaunch : Prop :=
  State.reset.Inv ∧ (∀ p, (State.construct p).Inv) ∧
    ∀ bytes s t, s.Inv → loadImage bytes s = some t → t.Inv

/-- Every step keeps the invariant: memory stays canonical, and only a running machine is held. -/
def Obligations.EveryStepKeepsTheInvariant : Prop :=
  ∀ s t : State, s.Inv → step s = .next t → t.Inv

/-- Canonical memories whose cells all read alike are equal. -/
def Obligations.CanonicalMemoriesAreEqualByCells : Prop :=
  ∀ m m' : Memory, m.wf → m'.wf → (∀ a, m.read a = m'.read a) → m = m'

/-- R26: Unset is the value at construction and never comes back. -/
def Obligations.UnsetNeverComesBack : Prop :=
  (∀ p, (State.construct p).cond = .unset) ∧
    ∀ s t : State, step s = .next t → s.cond ≠ .unset → t.cond ≠ .unset

/-- R27 (derived by the spec): an instruction that is not flag-setting leaves cond, in every state. -/
def Obligations.OnlyFlagSettersChangeCond : Prop :=
  ∀ (i : Instr) (s t : State), exec i s = .next t → ¬ SetsFlags i → t.cond = s.cond

/-- The register access table R24 (derived by the spec): a register changes only by an instruction that
writes it. -/
def Obligations.OnlyNamedRegistersChange : Prop :=
  ∀ (i : Instr) (s t : State) (r : Reg), exec i s = .next t → ¬ WritesReg i r → t.reg r = s.reg r

/-- The access table R51 (derived by the spec): only stores change an ordinary cell, and only a read of
memory or a store changes a keyboard cell. -/
def Obligations.OnlyStoresChangeOrdinaryCells : Prop :=
  ∀ (i : Instr) (s t : State) (a : Nat), exec i s = .next t → ¬ Stores i →
    ((a ≠ 0xFE00 ∧ a ≠ 0xFE02) ∨ ¬ ReadsMemory i) → t.cell a = s.cell a

/-- Output only grows, and only by OUT, PUTS, PUTSP and, with a prompt or echo set, IN (R35; HALT's silence
is the spec's D20). -/
def Obligations.OnlyFourServicesWriteOutput : Prop :=
  ∀ (i : Instr) (s t : State), exec i s = .next t → ∃ bytes, t.output = s.output ++ bytes ∧
    (i ≠ .trapOut → i ≠ .trapPuts → i ≠ .trapPutsp → i ≠ .trapIn → bytes = []) ∧
    (i = .trapIn → s.params.inPrompt = [] → s.params.inEcho = false → bytes = [])

/-- The bytes taken followed by the bytes still to come are always the same stream, and the parameters
never change: no step loses, repeats or invents an input byte (R34 as the model holds it, logs 6, 7). -/
def Obligations.InputStreamIsConserved : Prop :=
  ∀ s t : State, step s = .next t → t.taken ++ t.input = s.taken ++ s.input ∧ t.params = s.params

/-- A host with no failing draw to come never ends a step with IoFailure, and stays so: the premise that
R267 has every claim make is enough. -/
def Obligations.ReliableHostNeverFails : Prop :=
  ∀ s t : State, s.HostReliable → step s = .next t → t.HostReliable ∧ t.run ≠ .halted .ioFailure

/-! ### The image -/

/-- R65: the words of an image go to consecutive cells from its origin, each pair of bytes big-endian, up to
the last valid address; nothing else changes, and nothing polls. -/
def Obligations.ImageWordsFillConsecutiveCells : Prop :=
  ∀ (hi lo : Byte) (words : List (Byte × Byte)) (s : State),
    let origin := hi.toNat * 256 + lo.toNat
    ∃ t, loadImage (hi :: lo :: words.flatMap fun w => [w.1, w.2]) s = some t ∧
      (∀ k w, words[k]? = some w → origin + k ≤ 0xFFFF →
        (t.cell (origin + k)).toNat = w.1.toNat * 256 + w.2.toNat) ∧
      (∀ a, (a < origin ∨ origin + words.length ≤ a ∨ 0xFFFF < a) → t.cell a = s.cell a) ∧
      SameRegs s t ∧ t.cond = s.cond ∧ t.pc = s.pc ∧ SameControl s t ∧ SameInput s t ∧ SameOutput s t

/-- An image of fewer than two bytes or an odd number of them has no launch state; every other image has one
(R66 is the spec's D16, log 19). -/
def Obligations.MalformedImagesAreRefused : Prop :=
  ∀ (p : Params) (bytes : List Byte),
    (bytes.length < 2 ∨ bytes.length % 2 = 1 → launch p bytes = .refused (.malformedImage bytes.length)) ∧
    (2 ≤ bytes.length → bytes.length % 2 = 0 → ∃ t, launch p bytes = .next t ∧ t.pc = p.pcStart ∧ t.run = .running)
end

