-- ==== Sys2Proof/Laws/Decode.lean ====
section
/-! SUPPORT. Sign extension as the standard one, and register fields there and back. -/

namespace Sys2Proof.Laws

/-- `sext_N` of 00_scope.md R12 is sign extension of the low N bits, for the four widths in use. -/
theorem sext_eq_signExtend (n : Nat) (hn : n ∈ [5, 6, 9, 11]) (v : Word) :
    sext n v = (v.setWidth n).signExtend 16 := by
  simp only [List.mem_cons, List.not_mem_nil, or_false] at hn
  rcases hn with rfl | rfl | rfl | rfl <;>
  · apply BitVec.eq_of_getLsbD_eq
    intro i hi
    unfold sext
    simp only [BitVec.getLsbD_signExtend, BitVec.getLsbD_setWidth, BitVec.msb_eq_getLsbD_last]
    interval_cases i <;> simp <;> split <;> simp_all

/-- A value in the range of its field is the sign extension of its own low bits. -/
theorem signExtend_of_fits (n : Nat) (hn : n ∈ [5, 6, 9, 11]) (v : Word) (h : FitsSigned n v) :
    (v.setWidth n).signExtend 16 = v := by
  simp only [List.mem_cons, List.not_mem_nil, or_false] at hn
  apply BitVec.eq_of_toInt_eq
  rw [BitVec.toInt_signExtend_of_le (by omega), BitVec.toInt_setWidth]
  obtain ⟨h1, h2⟩ := h
  rcases hn with rfl | rfl | rfl | rfl <;> simp at h1 h2 ⊢ <;>
    (rw [BitVec.toInt_eq_toNat_bmod] at *; simp only [Int.bmod_def] at *; omega)

@[simp] theorem regOf_regBits (r : Reg) : regOf (regBits r) = r := by revert r; decide

@[simp] theorem regBits_regOf (b : BitVec 3) : regBits (regOf b) = b := by revert b; decide

@[simp] theorem getLsbD_word {n : Nat} (f : BitVec n) (h : n = 16) (k : Nat) :
    (word f h).getLsbD k = f.getLsbD k := by subst h; rfl

/-- A field of an assembled word is that field of the bits it is made of. -/
@[simp] theorem extract_word {n : Nat} (f : BitVec n) (h : n = 16) (start len : Nat) :
    (word f h).extractLsb' start len = f.extractLsb' start len := by subst h; rfl

end Sys2Proof.Laws
end

