-- ==== Sys2Proof/Laws/State.lean ====
section
/-! SUPPORT. One lemma per field per update of State, each true by rfl, so that no proof unfolds an
update; then the register, the cell and the draw accessors under each update. -/

namespace Sys2Proof.Machine.Laws

/-! ### raise -/

@[simp] theorem raise_regs (r : Reason) (s : State) : (raise r s).regs = s.regs := rfl
@[simp] theorem raise_pc (r : Reason) (s : State) : (raise r s).pc = s.pc := rfl
@[simp] theorem raise_cond (r : Reason) (s : State) : (raise r s).cond = s.cond := rfl
@[simp] theorem raise_run (r : Reason) (s : State) : (raise r s).run = .halted r := rfl
@[simp] theorem raise_mem (r : Reason) (s : State) : (raise r s).mem = s.mem := rfl
@[simp] theorem raise_hold (r : Reason) (s : State) : (raise r s).hold = s.hold := rfl
@[simp] theorem raise_input (r : Reason) (s : State) : (raise r s).input = s.input := rfl
@[simp] theorem raise_inputDraws (r : Reason) (s : State) : (raise r s).inputDraws = s.inputDraws := rfl
@[simp] theorem raise_taken (r : Reason) (s : State) : (raise r s).taken = s.taken := rfl
@[simp] theorem raise_output (r : Reason) (s : State) : (raise r s).output = s.output := rfl
@[simp] theorem raise_outputDraws (r : Reason) (s : State) : (raise r s).outputDraws = s.outputDraws := rfl
@[simp] theorem raise_params (r : Reason) (s : State) : (raise r s).params = s.params := rfl

/-! ### setReg -/

@[simp] theorem setReg_regs (r : Reg) (v : Word) (s : State) : (s.setReg r v).regs = s.regs.set r.val v r.isLt := rfl
@[simp] theorem setReg_pc (r : Reg) (v : Word) (s : State) : (s.setReg r v).pc = s.pc := rfl
@[simp] theorem setReg_cond (r : Reg) (v : Word) (s : State) : (s.setReg r v).cond = s.cond := rfl
@[simp] theorem setReg_run (r : Reg) (v : Word) (s : State) : (s.setReg r v).run = s.run := rfl
@[simp] theorem setReg_mem (r : Reg) (v : Word) (s : State) : (s.setReg r v).mem = s.mem := rfl
@[simp] theorem setReg_hold (r : Reg) (v : Word) (s : State) : (s.setReg r v).hold = s.hold := rfl
@[simp] theorem setReg_input (r : Reg) (v : Word) (s : State) : (s.setReg r v).input = s.input := rfl
@[simp] theorem setReg_inputDraws (r : Reg) (v : Word) (s : State) : (s.setReg r v).inputDraws = s.inputDraws := rfl
@[simp] theorem setReg_taken (r : Reg) (v : Word) (s : State) : (s.setReg r v).taken = s.taken := rfl
@[simp] theorem setReg_output (r : Reg) (v : Word) (s : State) : (s.setReg r v).output = s.output := rfl
@[simp] theorem setReg_outputDraws (r : Reg) (v : Word) (s : State) : (s.setReg r v).outputDraws = s.outputDraws := rfl
@[simp] theorem setReg_params (r : Reg) (v : Word) (s : State) : (s.setReg r v).params = s.params := rfl

/-! ### setPc -/

@[simp] theorem setPc_regs (a : Word) (s : State) : (s.setPc a).regs = s.regs := rfl
@[simp] theorem setPc_pc (a : Word) (s : State) : (s.setPc a).pc = a := rfl
@[simp] theorem setPc_cond (a : Word) (s : State) : (s.setPc a).cond = s.cond := rfl
@[simp] theorem setPc_run (a : Word) (s : State) : (s.setPc a).run = s.run := rfl
@[simp] theorem setPc_mem (a : Word) (s : State) : (s.setPc a).mem = s.mem := rfl
@[simp] theorem setPc_hold (a : Word) (s : State) : (s.setPc a).hold = s.hold := rfl
@[simp] theorem setPc_input (a : Word) (s : State) : (s.setPc a).input = s.input := rfl
@[simp] theorem setPc_inputDraws (a : Word) (s : State) : (s.setPc a).inputDraws = s.inputDraws := rfl
@[simp] theorem setPc_taken (a : Word) (s : State) : (s.setPc a).taken = s.taken := rfl
@[simp] theorem setPc_output (a : Word) (s : State) : (s.setPc a).output = s.output := rfl
@[simp] theorem setPc_outputDraws (a : Word) (s : State) : (s.setPc a).outputDraws = s.outputDraws := rfl
@[simp] theorem setPc_params (a : Word) (s : State) : (s.setPc a).params = s.params := rfl

/-! ### setCell -/

@[simp] theorem setCell_regs (a : Nat) (v : Word) (s : State) : (s.setCell a v).regs = s.regs := rfl
@[simp] theorem setCell_pc (a : Nat) (v : Word) (s : State) : (s.setCell a v).pc = s.pc := rfl
@[simp] theorem setCell_cond (a : Nat) (v : Word) (s : State) : (s.setCell a v).cond = s.cond := rfl
@[simp] theorem setCell_run (a : Nat) (v : Word) (s : State) : (s.setCell a v).run = s.run := rfl
@[simp] theorem setCell_mem (a : Nat) (v : Word) (s : State) : (s.setCell a v).mem = s.mem.write a v := rfl
@[simp] theorem setCell_hold (a : Nat) (v : Word) (s : State) : (s.setCell a v).hold = s.hold := rfl
@[simp] theorem setCell_input (a : Nat) (v : Word) (s : State) : (s.setCell a v).input = s.input := rfl
@[simp] theorem setCell_inputDraws (a : Nat) (v : Word) (s : State) : (s.setCell a v).inputDraws = s.inputDraws := rfl
@[simp] theorem setCell_taken (a : Nat) (v : Word) (s : State) : (s.setCell a v).taken = s.taken := rfl
@[simp] theorem setCell_output (a : Nat) (v : Word) (s : State) : (s.setCell a v).output = s.output := rfl
@[simp] theorem setCell_outputDraws (a : Nat) (v : Word) (s : State) : (s.setCell a v).outputDraws = s.outputDraws := rfl
@[simp] theorem setCell_params (a : Nat) (v : Word) (s : State) : (s.setCell a v).params = s.params := rfl

/-! ### setcc -/

@[simp] theorem setcc_regs (v : Word) (s : State) : (setcc v s).regs = s.regs := rfl
@[simp] theorem setcc_pc (v : Word) (s : State) : (setcc v s).pc = s.pc := rfl
@[simp] theorem setcc_cond (v : Word) (s : State) : (setcc v s).cond = condOf v := rfl
@[simp] theorem setcc_run (v : Word) (s : State) : (setcc v s).run = s.run := rfl
@[simp] theorem setcc_mem (v : Word) (s : State) : (setcc v s).mem = s.mem := rfl
@[simp] theorem setcc_hold (v : Word) (s : State) : (setcc v s).hold = s.hold := rfl
@[simp] theorem setcc_input (v : Word) (s : State) : (setcc v s).input = s.input := rfl
@[simp] theorem setcc_inputDraws (v : Word) (s : State) : (setcc v s).inputDraws = s.inputDraws := rfl
@[simp] theorem setcc_taken (v : Word) (s : State) : (setcc v s).taken = s.taken := rfl
@[simp] theorem setcc_output (v : Word) (s : State) : (setcc v s).output = s.output := rfl
@[simp] theorem setcc_outputDraws (v : Word) (s : State) : (setcc v s).outputDraws = s.outputDraws := rfl
@[simp] theorem setcc_params (v : Word) (s : State) : (setcc v s).params = s.params := rfl

/-! ### setHold -/

@[simp] theorem setHold_regs (h : Option HeldRead) (s : State) : (s.setHold h).regs = s.regs := rfl
@[simp] theorem setHold_pc (h : Option HeldRead) (s : State) : (s.setHold h).pc = s.pc := rfl
@[simp] theorem setHold_cond (h : Option HeldRead) (s : State) : (s.setHold h).cond = s.cond := rfl
@[simp] theorem setHold_run (h : Option HeldRead) (s : State) : (s.setHold h).run = s.run := rfl
@[simp] theorem setHold_mem (h : Option HeldRead) (s : State) : (s.setHold h).mem = s.mem := rfl
@[simp] theorem setHold_hold (h : Option HeldRead) (s : State) : (s.setHold h).hold = h := rfl
@[simp] theorem setHold_input (h : Option HeldRead) (s : State) : (s.setHold h).input = s.input := rfl
@[simp] theorem setHold_inputDraws (h : Option HeldRead) (s : State) : (s.setHold h).inputDraws = s.inputDraws := rfl
@[simp] theorem setHold_taken (h : Option HeldRead) (s : State) : (s.setHold h).taken = s.taken := rfl
@[simp] theorem setHold_output (h : Option HeldRead) (s : State) : (s.setHold h).output = s.output := rfl
@[simp] theorem setHold_outputDraws (h : Option HeldRead) (s : State) : (s.setHold h).outputDraws = s.outputDraws := rfl
@[simp] theorem setHold_params (h : Option HeldRead) (s : State) : (s.setHold h).params = s.params := rfl

/-! ### spendInputDraw -/

@[simp] theorem spendInputDraw_regs (s : State) : (s.spendInputDraw).regs = s.regs := rfl
@[simp] theorem spendInputDraw_pc (s : State) : (s.spendInputDraw).pc = s.pc := rfl
@[simp] theorem spendInputDraw_cond (s : State) : (s.spendInputDraw).cond = s.cond := rfl
@[simp] theorem spendInputDraw_run (s : State) : (s.spendInputDraw).run = s.run := rfl
@[simp] theorem spendInputDraw_mem (s : State) : (s.spendInputDraw).mem = s.mem := rfl
@[simp] theorem spendInputDraw_hold (s : State) : (s.spendInputDraw).hold = s.hold := rfl
@[simp] theorem spendInputDraw_input (s : State) : (s.spendInputDraw).input = s.input := rfl
@[simp] theorem spendInputDraw_inputDraws (s : State) : (s.spendInputDraw).inputDraws = s.inputDraws.tail := rfl
@[simp] theorem spendInputDraw_taken (s : State) : (s.spendInputDraw).taken = s.taken := rfl
@[simp] theorem spendInputDraw_output (s : State) : (s.spendInputDraw).output = s.output := rfl
@[simp] theorem spendInputDraw_outputDraws (s : State) : (s.spendInputDraw).outputDraws = s.outputDraws := rfl
@[simp] theorem spendInputDraw_params (s : State) : (s.spendInputDraw).params = s.params := rfl

/-! ### takeByte -/

@[simp] theorem takeByte_regs (s : State) : (s.takeByte).regs = s.regs := rfl
@[simp] theorem takeByte_pc (s : State) : (s.takeByte).pc = s.pc := rfl
@[simp] theorem takeByte_cond (s : State) : (s.takeByte).cond = s.cond := rfl
@[simp] theorem takeByte_run (s : State) : (s.takeByte).run = s.run := rfl
@[simp] theorem takeByte_mem (s : State) : (s.takeByte).mem = s.mem := rfl
@[simp] theorem takeByte_hold (s : State) : (s.takeByte).hold = s.hold := rfl
@[simp] theorem takeByte_input (s : State) : (s.takeByte).input = s.input.tail := rfl
@[simp] theorem takeByte_inputDraws (s : State) : (s.takeByte).inputDraws = s.inputDraws := rfl
@[simp] theorem takeByte_taken (s : State) : (s.takeByte).taken = s.taken ++ s.input.take 1 := rfl
@[simp] theorem takeByte_output (s : State) : (s.takeByte).output = s.output := rfl
@[simp] theorem takeByte_outputDraws (s : State) : (s.takeByte).outputDraws = s.outputDraws := rfl
@[simp] theorem takeByte_params (s : State) : (s.takeByte).params = s.params := rfl

/-! ### spendOutputDraw -/

@[simp] theorem spendOutputDraw_regs (s : State) : (s.spendOutputDraw).regs = s.regs := rfl
@[simp] theorem spendOutputDraw_pc (s : State) : (s.spendOutputDraw).pc = s.pc := rfl
@[simp] theorem spendOutputDraw_cond (s : State) : (s.spendOutputDraw).cond = s.cond := rfl
@[simp] theorem spendOutputDraw_run (s : State) : (s.spendOutputDraw).run = s.run := rfl
@[simp] theorem spendOutputDraw_mem (s : State) : (s.spendOutputDraw).mem = s.mem := rfl
@[simp] theorem spendOutputDraw_hold (s : State) : (s.spendOutputDraw).hold = s.hold := rfl
@[simp] theorem spendOutputDraw_input (s : State) : (s.spendOutputDraw).input = s.input := rfl
@[simp] theorem spendOutputDraw_inputDraws (s : State) : (s.spendOutputDraw).inputDraws = s.inputDraws := rfl
@[simp] theorem spendOutputDraw_taken (s : State) : (s.spendOutputDraw).taken = s.taken := rfl
@[simp] theorem spendOutputDraw_output (s : State) : (s.spendOutputDraw).output = s.output := rfl
@[simp] theorem spendOutputDraw_outputDraws (s : State) : (s.spendOutputDraw).outputDraws = s.outputDraws.tail := rfl
@[simp] theorem spendOutputDraw_params (s : State) : (s.spendOutputDraw).params = s.params := rfl

/-! ### emit -/

@[simp] theorem emit_regs (b : Byte) (s : State) : (s.emit b).regs = s.regs := rfl
@[simp] theorem emit_pc (b : Byte) (s : State) : (s.emit b).pc = s.pc := rfl
@[simp] theorem emit_cond (b : Byte) (s : State) : (s.emit b).cond = s.cond := rfl
@[simp] theorem emit_run (b : Byte) (s : State) : (s.emit b).run = s.run := rfl
@[simp] theorem emit_mem (b : Byte) (s : State) : (s.emit b).mem = s.mem := rfl
@[simp] theorem emit_hold (b : Byte) (s : State) : (s.emit b).hold = s.hold := rfl
@[simp] theorem emit_input (b : Byte) (s : State) : (s.emit b).input = s.input := rfl
@[simp] theorem emit_inputDraws (b : Byte) (s : State) : (s.emit b).inputDraws = s.inputDraws := rfl
@[simp] theorem emit_taken (b : Byte) (s : State) : (s.emit b).taken = s.taken := rfl
@[simp] theorem emit_output (b : Byte) (s : State) : (s.emit b).output = s.output ++ [b] := rfl
@[simp] theorem emit_outputDraws (b : Byte) (s : State) : (s.emit b).outputDraws = s.outputDraws := rfl
@[simp] theorem emit_params (b : Byte) (s : State) : (s.emit b).params = s.params := rfl

/-! ### deliver -/

@[simp] theorem deliver_regs (b : List Byte) (s : State) : (s.deliver b).regs = s.regs := rfl
@[simp] theorem deliver_pc (b : List Byte) (s : State) : (s.deliver b).pc = s.pc := rfl
@[simp] theorem deliver_cond (b : List Byte) (s : State) : (s.deliver b).cond = s.cond := rfl
@[simp] theorem deliver_run (b : List Byte) (s : State) : (s.deliver b).run = s.run := rfl
@[simp] theorem deliver_mem (b : List Byte) (s : State) : (s.deliver b).mem = s.mem := rfl
@[simp] theorem deliver_hold (b : List Byte) (s : State) : (s.deliver b).hold = s.hold := rfl
@[simp] theorem deliver_input (b : List Byte) (s : State) : (s.deliver b).input = s.input ++ b := rfl
@[simp] theorem deliver_inputDraws (b : List Byte) (s : State) : (s.deliver b).inputDraws = s.inputDraws := rfl
@[simp] theorem deliver_taken (b : List Byte) (s : State) : (s.deliver b).taken = s.taken := rfl
@[simp] theorem deliver_output (b : List Byte) (s : State) : (s.deliver b).output = s.output := rfl
@[simp] theorem deliver_outputDraws (b : List Byte) (s : State) : (s.deliver b).outputDraws = s.outputDraws := rfl
@[simp] theorem deliver_params (b : List Byte) (s : State) : (s.deliver b).params = s.params := rfl

/-! ### Updates made of others -/

@[simp] theorem advancePc_eq (s : State) : s.advancePc = s.setPc (s.pc + 1) := rfl
@[simp] theorem link_eq (s : State) : s.link = s.setReg linkReg s.pc := rfl
@[simp] theorem writeResult_eq (r : Reg) (v : Word) (s : State) :
    writeResult r v s = setcc v (s.setReg r v) := rfl

/-! ### Registers -/

@[simp] theorem reg_setReg_same (r : Reg) (v : Word) (s : State) : (s.setReg r v).reg r = v := by
  simp [State.reg, State.setReg, Vector.get_eq_getElem]

theorem reg_setReg_ne (q : Reg) (r : Reg) (v : Word) (s : State) (h : q ≠ r) :
    (s.setReg r v).reg q = s.reg q := by
  have h' : r.val ≠ q.val := fun e => h (Fin.ext e.symm)
  simp [State.reg, State.setReg, Vector.get_eq_getElem, h']

theorem reg_setReg (q r : Reg) (v : Word) (s : State) :
    (s.setReg r v).reg q = if q = r then v else s.reg q := by
  split
  · next h => subst h; exact reg_setReg_same ..
  · next h => exact reg_setReg_ne q r v s h

@[simp] theorem reg_raise (q : Reg) (r : Reason) (s : State) : (raise r s).reg q = s.reg q := rfl
@[simp] theorem reg_setPc (q : Reg) (a : Word) (s : State) : (s.setPc a).reg q = s.reg q := rfl
@[simp] theorem reg_setCell (q : Reg) (a : Nat) (v : Word) (s : State) : (s.setCell a v).reg q = s.reg q := rfl
@[simp] theorem reg_setcc (q : Reg) (v : Word) (s : State) : (setcc v s).reg q = s.reg q := rfl
@[simp] theorem reg_setHold (q : Reg) (h : Option HeldRead) (s : State) : (s.setHold h).reg q = s.reg q := rfl
@[simp] theorem reg_spendInputDraw (q : Reg) (s : State) : (s.spendInputDraw).reg q = s.reg q := rfl
@[simp] theorem reg_takeByte (q : Reg) (s : State) : (s.takeByte).reg q = s.reg q := rfl
@[simp] theorem reg_spendOutputDraw (q : Reg) (s : State) : (s.spendOutputDraw).reg q = s.reg q := rfl
@[simp] theorem reg_emit (q : Reg) (b : Byte) (s : State) : (s.emit b).reg q = s.reg q := rfl
@[simp] theorem reg_deliver (q : Reg) (b : List Byte) (s : State) : (s.deliver b).reg q = s.reg q := rfl

/-! ### Cells -/

@[simp] theorem cell_raise (k : Nat) (r : Reason) (s : State) : (raise r s).cell k = s.cell k := rfl
@[simp] theorem cell_setReg (k : Nat) (r : Reg) (v : Word) (s : State) : (s.setReg r v).cell k = s.cell k := rfl
@[simp] theorem cell_setPc (k : Nat) (a : Word) (s : State) : (s.setPc a).cell k = s.cell k := rfl
@[simp] theorem cell_setcc (k : Nat) (v : Word) (s : State) : (setcc v s).cell k = s.cell k := rfl
@[simp] theorem cell_setHold (k : Nat) (h : Option HeldRead) (s : State) : (s.setHold h).cell k = s.cell k := rfl
@[simp] theorem cell_spendInputDraw (k : Nat) (s : State) : (s.spendInputDraw).cell k = s.cell k := rfl
@[simp] theorem cell_takeByte (k : Nat) (s : State) : (s.takeByte).cell k = s.cell k := rfl
@[simp] theorem cell_spendOutputDraw (k : Nat) (s : State) : (s.spendOutputDraw).cell k = s.cell k := rfl
@[simp] theorem cell_emit (k : Nat) (b : Byte) (s : State) : (s.emit b).cell k = s.cell k := rfl
@[simp] theorem cell_deliver (k : Nat) (b : List Byte) (s : State) : (s.deliver b).cell k = s.cell k := rfl

/-! ### Draws -/

@[simp] theorem inputDraw_raise (r : Reason) (s : State) : (raise r s).inputDraw = s.inputDraw := rfl
@[simp] theorem available_raise (r : Reason) (s : State) : (raise r s).available = s.available := rfl
@[simp] theorem outputDraw_raise (r : Reason) (s : State) : (raise r s).outputDraw = s.outputDraw := rfl
@[simp] theorem inputDraw_setReg (r : Reg) (v : Word) (s : State) : (s.setReg r v).inputDraw = s.inputDraw := rfl
@[simp] theorem available_setReg (r : Reg) (v : Word) (s : State) : (s.setReg r v).available = s.available := rfl
@[simp] theorem outputDraw_setReg (r : Reg) (v : Word) (s : State) : (s.setReg r v).outputDraw = s.outputDraw := rfl
@[simp] theorem inputDraw_setPc (a : Word) (s : State) : (s.setPc a).inputDraw = s.inputDraw := rfl
@[simp] theorem available_setPc (a : Word) (s : State) : (s.setPc a).available = s.available := rfl
@[simp] theorem outputDraw_setPc (a : Word) (s : State) : (s.setPc a).outputDraw = s.outputDraw := rfl
@[simp] theorem inputDraw_setCell (a : Nat) (v : Word) (s : State) : (s.setCell a v).inputDraw = s.inputDraw := rfl
@[simp] theorem available_setCell (a : Nat) (v : Word) (s : State) : (s.setCell a v).available = s.available := rfl
@[simp] theorem outputDraw_setCell (a : Nat) (v : Word) (s : State) : (s.setCell a v).outputDraw = s.outputDraw := rfl
@[simp] theorem inputDraw_setcc (v : Word) (s : State) : (setcc v s).inputDraw = s.inputDraw := rfl
@[simp] theorem available_setcc (v : Word) (s : State) : (setcc v s).available = s.available := rfl
@[simp] theorem outputDraw_setcc (v : Word) (s : State) : (setcc v s).outputDraw = s.outputDraw := rfl
@[simp] theorem inputDraw_setHold (h : Option HeldRead) (s : State) : (s.setHold h).inputDraw = s.inputDraw := rfl
@[simp] theorem available_setHold (h : Option HeldRead) (s : State) : (s.setHold h).available = s.available := rfl
@[simp] theorem outputDraw_setHold (h : Option HeldRead) (s : State) : (s.setHold h).outputDraw = s.outputDraw := rfl
@[simp] theorem outputDraw_spendInputDraw (s : State) : (s.spendInputDraw).outputDraw = s.outputDraw := rfl
@[simp] theorem inputDraw_takeByte (s : State) : (s.takeByte).inputDraw = s.inputDraw := rfl
@[simp] theorem outputDraw_takeByte (s : State) : (s.takeByte).outputDraw = s.outputDraw := rfl
@[simp] theorem inputDraw_spendOutputDraw (s : State) : (s.spendOutputDraw).inputDraw = s.inputDraw := rfl
@[simp] theorem available_spendOutputDraw (s : State) : (s.spendOutputDraw).available = s.available := rfl
@[simp] theorem inputDraw_emit (b : Byte) (s : State) : (s.emit b).inputDraw = s.inputDraw := rfl
@[simp] theorem available_emit (b : Byte) (s : State) : (s.emit b).available = s.available := rfl
@[simp] theorem outputDraw_emit (b : Byte) (s : State) : (s.emit b).outputDraw = s.outputDraw := rfl
@[simp] theorem inputDraw_deliver (b : List Byte) (s : State) : (s.deliver b).inputDraw = s.inputDraw := rfl
@[simp] theorem outputDraw_deliver (b : List Byte) (s : State) : (s.deliver b).outputDraw = s.outputDraw := rfl

end Sys2Proof.Machine.Laws
end

