-- ==== Sys2Proof/Laws/Memory.lean ====
section
/-! SUPPORT. Memory: a read after a write, the canonical form, and that canonical memories with the same
cells are equal. The read laws need no canonical form. -/

namespace Sys2Proof.Machine.Laws

@[simp] theorem read_nil (a : Nat) : Memory.read [] a = 0 := rfl

/-- An address no entry names reads as the unlisted word. -/
theorem read_of_absent (m : Memory) (a : Nat) (h : ∀ c ∈ m, c.1 ≠ a) : m.read a = 0 := by
  induction m with
  | nil => rfl
  | cons c rest ih =>
    obtain ⟨k, v⟩ := c
    have hk : k ≠ a := h (k, v) (by simp)
    simp only [Memory.read, if_neg hk]
    exact ih fun c hc => h c (by simp [hc])

theorem read_insert_same (m : Memory) (a : Nat) (v : Word) (h : ∀ c ∈ m, c.1 ≠ a) :
    (m.insert a v).read a = v := by
  induction m with
  | nil => simp [Memory.insert, Memory.read]
  | cons c rest ih =>
    obtain ⟨k, u⟩ := c
    have hk : k ≠ a := h (k, u) (by simp)
    simp only [Memory.insert]
    split
    · simp only [Memory.read, if_neg hk]
      exact ih fun c hc => h c (by simp [hc])
    · simp [Memory.read]

theorem read_insert_ne (m : Memory) (a b : Nat) (v : Word) (h : b ≠ a) :
    (m.insert a v).read b = m.read b := by
  induction m with
  | nil => simp [Memory.insert, Memory.read, h.symm, unlistedWord]
  | cons c rest ih =>
    obtain ⟨k, u⟩ := c
    simp only [Memory.insert]
    split <;> simp [Memory.read, ih, h.symm]

theorem read_filter_ne (m : Memory) (a b : Nat) (h : b ≠ a) :
    Memory.read (m.filter fun c => c.1 ≠ a) b = m.read b := by
  induction m with
  | nil => rfl
  | cons c rest ih =>
    obtain ⟨k, u⟩ := c
    by_cases hk : k = a
    · have hb : k ≠ b := fun e => h (e ▸ hk)
      rw [List.filter_cons_of_neg (by simp [hk]), ih]
      simp [Memory.read, hb]
    · rw [List.filter_cons_of_pos (by simp [hk])]
      simp only [Memory.read, ih]

theorem absent_filter (m : Memory) (a : Nat) : ∀ c ∈ m.filter (fun c => c.1 ≠ a), c.1 ≠ a := by
  intro c hc
  simpa using (List.mem_filter.mp hc).2

/-- A read after a write to the same cell gives the value written. -/
@[simp] theorem read_write_same (m : Memory) (a : Nat) (v : Word) : (m.write a v).read a = v := by
  unfold Memory.write
  split
  · next h => rw [read_of_absent _ _ (absent_filter m a), h]; rfl
  · exact read_insert_same _ _ _ (absent_filter m a)

/-- A write leaves every other cell alone. -/
theorem read_write_ne (m : Memory) (a b : Nat) (v : Word) (h : b ≠ a) :
    (m.write a v).read b = m.read b := by
  unfold Memory.write
  split
  · exact read_filter_ne m a b h
  · rw [read_insert_ne _ _ _ _ h, read_filter_ne m a b h]

theorem read_write (m : Memory) (a b : Nat) (v : Word) :
    (m.write a v).read b = if b = a then v else m.read b := by
  split
  · next h => subst h; exact read_write_same ..
  · next h => exact read_write_ne m a b v h

theorem cell_setCell (a k : Nat) (v : Word) (s : State) :
    (s.setCell a v).cell k = if k = a then v else s.cell k := read_write s.mem a k v

@[simp] theorem cell_setCell_same (a : Nat) (v : Word) (s : State) : (s.setCell a v).cell a = v :=
  read_write_same s.mem a v

theorem cell_setCell_ne (a k : Nat) (v : Word) (s : State) (h : k ≠ a) :
    (s.setCell a v).cell k = s.cell k := read_write_ne s.mem a k v h

/-! ### The canonical form -/

theorem mem_insert (m : Memory) (a : Nat) (v : Word) (c : Nat × Word) :
    c ∈ m.insert a v ↔ c = (a, v) ∨ c ∈ m := by
  induction m with
  | nil => simp [Memory.insert]
  | cons d rest ih =>
    obtain ⟨k, u⟩ := d
    simp only [Memory.insert]
    split
    · simp only [List.mem_cons, ih]; tauto
    · simp only [List.mem_cons]

theorem pairwise_insert (m : Memory) (a : Nat) (v : Word) (h : ∀ c ∈ m, c.1 ≠ a)
    (hm : m.Pairwise fun c d => c.1 < d.1) : (m.insert a v).Pairwise fun c d => c.1 < d.1 := by
  induction m with
  | nil => simp [Memory.insert]
  | cons d rest ih =>
    obtain ⟨k, u⟩ := d
    have hk : k ≠ a := h (k, u) (by simp)
    obtain ⟨hlow, hrest⟩ := List.pairwise_cons.mp hm
    simp only [Memory.insert]
    split
    · next hlt =>
      refine List.pairwise_cons.mpr ⟨?_, ih (fun c hc => h c (by simp [hc])) hrest⟩
      intro c hc
      rcases (mem_insert rest a v c).mp hc with rfl | hc
      · exact hlt
      · exact hlow c hc
    · next hge =>
      have hak : a < k := by omega
      refine List.pairwise_cons.mpr ⟨?_, hm⟩
      intro c hc
      rcases List.mem_cons.mp hc with rfl | hc
      · exact hak
      · exact Nat.lt_trans hak (hlow c hc)

/-- Every store keeps the canonical form. -/
theorem wf_write (m : Memory) (a : Nat) (v : Word) (ha : a < memWords) (h : m.wf) : (m.write a v).wf := by
  obtain ⟨hp, hc⟩ := h
  have hfp := hp.filter (p := fun c => decide (c.1 ≠ a))
  have hfc : ∀ c ∈ m.filter (fun c => c.1 ≠ a), c.1 < memWords ∧ c.2 ≠ unlistedWord :=
    fun c hm => hc c (List.mem_filter.mp hm).1
  unfold Memory.write
  split
  · exact ⟨hfp, hfc⟩
  · next hv =>
    refine ⟨pairwise_insert _ _ _ (absent_filter m a) hfp, fun c hm => ?_⟩
    rcases (mem_insert _ _ _ _).mp hm with rfl | hm
    · exact ⟨ha, hv⟩
    · exact hfc c hm

theorem wf_nil : Memory.wf [] := by simp [Memory.wf]

/-- An entry of a canonical memory reads as its own value. -/
theorem read_of_mem (m : Memory) (c : Nat × Word) (h : m.wf) (hc : c ∈ m) : m.read c.1 = c.2 := by
  induction m with
  | nil => simp at hc
  | cons d rest ih =>
    obtain ⟨k, u⟩ := d
    obtain ⟨hp, ha⟩ := h
    obtain ⟨hlow, hrest⟩ := List.pairwise_cons.mp hp
    rcases List.mem_cons.mp hc with rfl | hc
    · simp [Memory.read]
    · have hlt : k < c.1 := hlow c hc
      rw [Memory.read, if_neg (by omega)]
      exact ih ⟨hrest, fun d hd => ha d (by simp [hd])⟩ hc

/-- An address that reads as another word than the unlisted one has an entry. -/
theorem mem_of_read (m : Memory) (a : Nat) (h : m.read a ≠ 0) : (a, m.read a) ∈ m := by
  induction m with
  | nil => exact absurd rfl h
  | cons d rest ih =>
    obtain ⟨k, u⟩ := d
    by_cases hk : k = a
    · subst hk; simp [Memory.read]
    · rw [Memory.read, if_neg hk] at h ⊢
      exact List.mem_cons_of_mem _ (ih h)

end Sys2Proof.Machine.Laws
end

