-- ==== Sys2Proof/Laws/Ops.lean ====
section
/-! SUPPORT. One lemma for each shared operation that says once everything it can do; later proofs cite
it instead of unfolding the operation. -/

namespace Sys2Proof.Machine.Laws

/-! ### Phases -/

@[simp] theorem andThen_ok {α β : Type} (v : α) (s : State) (k : α → State → Phase β) :
    (Phase.ok v s).andThen k = k v s := rfl
@[simp] theorem andThen_ended {α β : Type} (s : State) (k : α → State → Phase β) :
    (Phase.ended s).andThen k = .ended s := rfl
@[simp] theorem outcome_ok (s : State) : (Phase.ok () s).outcome = .next s := rfl
@[simp] theorem outcome_ended (s : State) : (Phase.ended s).outcome = .next s := rfl

/-- The state a phase leaves, whether the step goes on or has ended. -/
def left {α : Type} : Phase α → State
  | .ok _ s => s
  | .ended s => s

@[simp] theorem left_ok {α : Type} (v : α) (s : State) : left (.ok v s) = s := rfl
@[simp] theorem left_ended {α : Type} (s : State) : left (.ended s : Phase α) = s := rfl

/-- A meaning that is a phase's outcome always answers a next state. -/
theorem outcome_eq (p : Phase Unit) : p.outcome = .next (left p) := by cases p <;> rfl

/-- A property every part of a step keeps is kept by the step. -/
theorem andThen_keeps {α β : Type} (P : State → Prop) (p : Phase α) (k : α → State → Phase β)
    (hp : P (left p)) (hk : ∀ v s, p = .ok v s → P s → P (left (k v s))) : P (left (p.andThen k)) := by
  cases p with
  | ok v s => exact hk v s rfl hp
  | ended s => exact hp

/-! ### Draws -/

@[simp] theorem available_of_fails (s : State) (h : s.inputDraw = .fails) : s.available = none := by
  simp [State.available, h]
@[simp] theorem available_of_notYet (s : State) (h : s.inputDraw = .notYet) : s.available = none := by
  simp [State.available, h]

theorem available_eq_some (s : State) (b : Byte) (h : s.available = some b) :
    s.inputDraw = .ready ∧ ∃ rest, s.input = b :: rest := by
  unfold State.available at h
  split at h
  · next hd => exact ⟨hd, by cases hi : s.input <;> simp_all⟩
  · simp at h
  · simp at h

/-! ### Console primitives -/

/-- ConsoleTryRead: fails, or answers what is available. -/
theorem consoleTryRead_cases (s : State) :
    (s.inputDraw = .fails ∧ consoleTryRead s = .ended (raise .ioFailure s.spendInputDraw)) ∨
    (s.inputDraw ≠ .fails ∧ consoleTryRead s = .ok s.available s.spendInputDraw) := by
  unfold consoleTryRead
  cases h : s.inputDraw <;> simp

/-- ConsoleRead: fails, takes the byte that is available, or holds the step. -/
theorem consoleRead_cases (k : HeldRead) (s : State) :
    (s.inputDraw = .fails ∧
      consoleRead k s = .ended (raise .ioFailure (s.spendInputDraw.setHold none))) ∨
    (∃ b, s.inputDraw = .ready ∧ s.available = some b ∧
      consoleRead k s = .ok b (s.spendInputDraw.takeByte.setHold none)) ∨
    (s.inputDraw ≠ .fails ∧ s.available = none ∧
      consoleRead k s = .ended (s.spendInputDraw.setHold (some k))) := by
  unfold consoleRead
  cases h : s.inputDraw <;> cases hb : s.available <;> simp_all

/-- ConsoleWrite: fails, or appends the byte. -/
theorem consoleWrite_cases (b : Byte) (s : State) :
    (s.outputDraw = .fails ∧ consoleWrite b s = .ended (raise .ioFailure s.spendOutputDraw)) ∨
    (s.outputDraw = .accepts ∧
      consoleWrite b s = .ok () (s.spendOutputDraw.emit b)) := by
  unfold consoleWrite
  cases h : s.outputDraw <;> simp

/-! ### The keyboard poll, MemRead and MemWrite -/

/-- The state after a poll that found the byte `b`. -/
def polledByte (b : Byte) (s : State) : State :=
  let s := (s.spendInputDraw.setCell kbsrAddr 0x8000).setCell kbdrAddr (zext16 b)
  if s.params.kbdPollConsumes then s.takeByte else s

/-- The state after a poll that found no byte. -/
def polledNothing (s : State) : State := s.spendInputDraw.setCell kbsrAddr 0x0000

theorem keyboardPoll_cases (s : State) :
    (s.inputDraw = .fails ∧ keyboardPoll s = .ended (raise .ioFailure s.spendInputDraw)) ∨
    (∃ b, s.inputDraw = .ready ∧ s.available = some b ∧ keyboardPoll s = .ok () (polledByte b s)) ∨
    (s.inputDraw ≠ .fails ∧ s.available = none ∧ keyboardPoll s = .ok () (polledNothing s)) := by
  unfold keyboardPoll
  rcases consoleTryRead_cases s with ⟨hd, he⟩ | ⟨hd, he⟩
  · exact .inl ⟨hd, by rw [he]; rfl⟩
  · right
    cases hb : s.available with
    | none => exact .inr ⟨hd, rfl, by rw [he, hb]; rfl⟩
    | some b => exact .inl ⟨b, (available_eq_some s b hb).1, rfl, by rw [he, hb]; rfl⟩

@[simp] theorem cell_polledByte_kbsr (b : Byte) (s : State) : (polledByte b s).cell kbsrAddr = 0x8000 := by
  unfold polledByte
  dsimp only
  split <;> simp [cell_setCell, kbsrAddr, kbdrAddr]

@[simp] theorem cell_polledNothing_kbsr (s : State) : (polledNothing s).cell kbsrAddr = 0x0000 := by
  simp [polledNothing]

/-- MemRead: out of bounds, a poll that fails, a poll that finds a byte or none, or a plain read. -/
theorem memRead_cases (a : Nat) (s : State) :
    (memWords ≤ a ∧ memRead a s = .ended (raise (.outOfBoundsAccess a) s)) ∨
    (a = kbsrAddr ∧ s.inputDraw = .fails ∧ memRead a s = .ended (raise .ioFailure s.spendInputDraw)) ∨
    (∃ b, a = kbsrAddr ∧ s.inputDraw = .ready ∧ s.available = some b ∧
      memRead a s = .ok 0x8000 (polledByte b s)) ∨
    (a = kbsrAddr ∧ s.inputDraw ≠ .fails ∧ s.available = none ∧
      memRead a s = .ok 0x0000 (polledNothing s)) ∨
    (a < memWords ∧ a ≠ kbsrAddr ∧ memRead a s = .ok (s.cell a) s) := by
  unfold memRead
  split
  · next h => exact .inl ⟨h, rfl⟩
  · next h =>
    right
    split
    · next hk =>
      subst hk
      rcases keyboardPoll_cases s with ⟨hd, he⟩ | ⟨b, hd, hb, he⟩ | ⟨hd, hb, he⟩
      · exact .inl ⟨rfl, hd, by rw [he]; rfl⟩
      · exact .inr (.inl ⟨b, rfl, hd, hb, by rw [he]; simp⟩)
      · exact .inr (.inr (.inl ⟨rfl, hd, hb, by rw [he]; simp⟩))
    · next hk => exact .inr (.inr (.inr ⟨by omega, hk, rfl⟩))

/-- A MemRead of a cell other than 0xFE00 reads it and does nothing else. -/
theorem memRead_plain (a : Nat) (s : State) (h : a < memWords) (hk : a ≠ kbsrAddr) :
    memRead a s = .ok (s.cell a) s := by
  have : ¬ memWords ≤ a := by omega
  simp [memRead, this, hk]

theorem word_lt_memWords (w : Word) : w.toNat < memWords := w.isLt

/-- A MemWrite at a 16-bit address stores the cell. -/
@[simp] theorem memWrite_word (a : Word) (v : Word) (s : State) :
    memWrite a.toNat v s = .ok () (s.setCell a.toNat v) := by
  have : ¬ memWords ≤ a.toNat := by have := word_lt_memWords a; omega
  simp [memWrite, this]

/-- A MemRead of 0xFE00 whose draw is no failure answers 0x8000 or 0x0000. -/
theorem memRead_kbsr (s : State) (h : s.inputDraw ≠ .fails) :
    ∃ v u, memRead kbsrAddr s = .ok v u ∧ (v = 0x8000 ∨ v = 0x0000) := by
  rcases memRead_cases kbsrAddr s with ⟨ha, _⟩ | ⟨_, hd, _⟩ | ⟨b, _, _, _, e⟩ | ⟨_, _, _, e⟩ | ⟨_, hk, _⟩
  · simp [memWords, kbsrAddr] at ha
  · exact absurd hd h
  · exact ⟨_, _, e, .inl rfl⟩
  · exact ⟨_, _, e, .inr rfl⟩
  · exact absurd rfl hk

/-- A MemRead of 0xFE00 whose draw is a failure ends the step. -/
theorem memRead_kbsr_fails (s : State) (h : s.inputDraw = .fails) :
    memRead kbsrAddr s = .ended (raise .ioFailure s.spendInputDraw) := by
  rcases memRead_cases kbsrAddr s with ⟨ha, _⟩ | ⟨_, _, e⟩ | ⟨b, _, hd, _, _⟩ | ⟨_, hd, _, _⟩ | ⟨_, hk, _⟩
  · simp [memWords, kbsrAddr] at ha
  · exact e
  · simp [h] at hd
  · exact absurd h hd
  · exact absurd rfl hk

/-! ### The flags -/

/-- `condOf` classifies by the sign of the word read as a signed number. -/
theorem condOf_eq (v : Word) :
    condOf v = if v.toInt < 0 then .negative else if v.toInt = 0 then .zero else .positive := by
  have hs : v.getLsbD 15 = decide (v.toInt < 0) := (show v.getLsbD 15 = v.msb from rfl).trans BitVec.msb_eq_toInt
  have hz : v = 0 ↔ v.toInt = 0 :=
    ⟨fun h => by subst h; rfl, fun h => BitVec.eq_of_toInt_eq (by simpa using h)⟩
  simp only [condOf, hs, decide_eq_true_eq, hz]

theorem condOf_ne_unset (v : Word) : condOf v ≠ .unset := by
  rw [condOf_eq]
  split
  · simp
  · split <;> simp

/-! ### The canonical form of memory -/

theorem wf_polledByte (b : Byte) (s : State) (h : s.mem.wf) : (polledByte b s).mem.wf := by
  have h1 := wf_write s.mem kbsrAddr 0x8000 (by decide) h
  have h2 := wf_write _ kbdrAddr (zext16 b) (by decide) h1
  unfold polledByte
  dsimp only
  split <;> exact h2

theorem wf_polledNothing (s : State) (h : s.mem.wf) : (polledNothing s).mem.wf :=
  wf_write s.mem kbsrAddr 0x0000 (by decide) h

/-- Every MemRead keeps the canonical form. -/
theorem wf_memRead (a : Nat) (s : State) (h : s.mem.wf) : (left (memRead a s)).mem.wf := by
  rcases memRead_cases a s with ⟨_, e⟩ | ⟨_, _, e⟩ | ⟨b, _, _, _, e⟩ | ⟨_, _, _, e⟩ | ⟨_, _, e⟩ <;> rw [e]
  · exact h
  · exact h
  · exact wf_polledByte b s h
  · exact wf_polledNothing s h
  · exact h

/-- Every MemWrite keeps the canonical form. -/
theorem wf_memWrite (a : Nat) (v : Word) (s : State) (h : s.mem.wf) : (left (memWrite a v s)).mem.wf := by
  unfold memWrite
  split
  · exact h
  · exact wf_write s.mem a v (by omega) h

end Sys2Proof.Machine.Laws
end

