-- ==== Sys2Proof/Laws/Frame.lean ====
section
/-! SUPPORT. What the shared operations leave unchanged, as relations that compose along a step. -/

namespace Sys2Proof.Machine.Laws

/-- The core's registers, pc and cond, the parameters and the host's output port are untouched, and of
memory at most the two keyboard cells: what a MemRead may do. -/
structure ReadOnly (s t : State) : Prop where
  regs : t.regs = s.regs
  pc : t.pc = s.pc
  cond : t.cond = s.cond
  hold : t.hold = s.hold
  params : t.params = s.params
  output : t.output = s.output
  outputDraws : t.outputDraws = s.outputDraws
  stream : t.taken ++ t.input = s.taken ++ s.input
  cells : ∀ a, a ≠ kbsrAddr → a ≠ kbdrAddr → t.cell a = s.cell a

theorem ReadOnly.refl (s : State) : ReadOnly s s := ⟨rfl, rfl, rfl, rfl, rfl, rfl, rfl, rfl, fun _ _ _ => rfl⟩

theorem ReadOnly.trans {s t u : State} (h : ReadOnly s t) (k : ReadOnly t u) : ReadOnly s u :=
  ⟨k.regs.trans h.regs, k.pc.trans h.pc, k.cond.trans h.cond, k.hold.trans h.hold, k.params.trans h.params,
    k.output.trans h.output, k.outputDraws.trans h.outputDraws, k.stream.trans h.stream,
    fun a ha hb => (k.cells a ha hb).trans (h.cells a ha hb)⟩

theorem takeByte_stream (s : State) : s.takeByte.taken ++ s.takeByte.input = s.taken ++ s.input := by
  simp only [takeByte_taken, takeByte_input]
  cases s.input <;> simp

theorem readOnly_polledByte (b : Byte) (s : State) : ReadOnly s (polledByte b s) := by
  have cells : ∀ a, a ≠ kbsrAddr → a ≠ kbdrAddr →
      ((s.spendInputDraw.setCell kbsrAddr 0x8000).setCell kbdrAddr (zext16 b)).cell a = s.cell a :=
    fun a ha hb => by rw [cell_setCell_ne _ _ _ _ hb, cell_setCell_ne _ _ _ _ ha, cell_spendInputDraw]
  unfold polledByte
  dsimp only
  split
  · exact ⟨rfl, rfl, rfl, rfl, rfl, rfl, rfl, takeByte_stream _, cells⟩
  · exact ⟨rfl, rfl, rfl, rfl, rfl, rfl, rfl, rfl, cells⟩

theorem readOnly_polledNothing (s : State) : ReadOnly s (polledNothing s) :=
  ⟨rfl, rfl, rfl, rfl, rfl, rfl, rfl, rfl, fun a ha _ => by
    simp only [polledNothing]; rw [cell_setCell_ne _ _ _ _ ha, cell_spendInputDraw]⟩

/-- A MemRead touches nothing but the input port, the keyboard cells and, on a failure, the run state. -/
theorem readOnly_memRead (a : Nat) (s : State) : ReadOnly s (left (memRead a s)) := by
  rcases memRead_cases a s with ⟨_, e⟩ | ⟨_, _, e⟩ | ⟨b, _, _, _, e⟩ | ⟨_, _, _, e⟩ | ⟨_, _, e⟩ <;> rw [e]
  · exact ⟨rfl, rfl, rfl, rfl, rfl, rfl, rfl, rfl, fun _ _ _ => rfl⟩
  · exact ⟨rfl, rfl, rfl, rfl, rfl, rfl, rfl, rfl, fun _ _ _ => rfl⟩
  · exact readOnly_polledByte b s
  · exact readOnly_polledNothing s
  · exact ReadOnly.refl s

/-- A MemRead that goes on leaves a running machine running. -/
theorem run_memRead_ok {a : Nat} {s t : State} {v : Word} (h : memRead a s = .ok v t) : t.run = s.run := by
  rcases memRead_cases a s with ⟨_, e⟩ | ⟨_, _, e⟩ | ⟨b, _, _, _, e⟩ | ⟨_, _, _, e⟩ | ⟨_, _, e⟩ <;>
    rw [e] at h <;> cases h
  · unfold polledByte; dsimp only; split <;> rfl
  · rfl
  · rfl

/-- Nothing but the output port and, on a failure, the run state is touched: what a ConsoleWrite may do. -/
structure WriteOnly (s t : State) : Prop where
  regs : t.regs = s.regs
  pc : t.pc = s.pc
  cond : t.cond = s.cond
  hold : t.hold = s.hold
  params : t.params = s.params
  input : t.input = s.input
  inputDraws : t.inputDraws = s.inputDraws
  taken : t.taken = s.taken
  mem : t.mem = s.mem
  grows : ∃ bytes, t.output = s.output ++ bytes

theorem WriteOnly.refl (s : State) : WriteOnly s s :=
  ⟨rfl, rfl, rfl, rfl, rfl, rfl, rfl, rfl, rfl, [], by simp⟩

theorem WriteOnly.trans {s t u : State} (h : WriteOnly s t) (k : WriteOnly t u) : WriteOnly s u := by
  obtain ⟨b, hb⟩ := h.grows
  obtain ⟨c, hc⟩ := k.grows
  exact ⟨k.regs.trans h.regs, k.pc.trans h.pc, k.cond.trans h.cond, k.hold.trans h.hold,
    k.params.trans h.params, k.input.trans h.input, k.inputDraws.trans h.inputDraws,
    k.taken.trans h.taken, k.mem.trans h.mem, b ++ c, by rw [hc, hb, List.append_assoc]⟩

theorem writeOnly_consoleWrite (b : Byte) (s : State) : WriteOnly s (left (consoleWrite b s)) := by
  rcases consoleWrite_cases b s with ⟨_, e⟩ | ⟨_, e⟩ <;> rw [e]
  · exact ⟨rfl, rfl, rfl, rfl, rfl, rfl, rfl, rfl, rfl, [], by simp⟩
  · exact ⟨rfl, rfl, rfl, rfl, rfl, rfl, rfl, rfl, rfl, [b], rfl⟩

theorem writeOnly_consoleWriteAll (bytes : List Byte) (s : State) :
    WriteOnly s (left (consoleWriteAll bytes s)) := by
  induction bytes generalizing s with
  | nil => exact WriteOnly.refl s
  | cons b rest ih =>
    refine andThen_keeps (WriteOnly s) _ _ (writeOnly_consoleWrite b s) fun _ t _ ht => ht.trans (ih t)

/-- The state after the sink has accepted some bytes. -/
def emitAll (bytes : List Byte) (s : State) : State :=
  { s with output := s.output ++ bytes, outputDraws := s.outputDraws.drop bytes.length }

/-- Bytes the sink accepts are appended in order. -/
theorem consoleWriteAll_accepts (bytes : List Byte) (s : State)
    (h : ∀ d ∈ s.outputDraws.take bytes.length, d = .accepts) :
    consoleWriteAll bytes s =
      .ok () (emitAll bytes s) := by
  induction bytes generalizing s with
  | nil => simp [consoleWriteAll, emitAll]
  | cons b rest ih =>
    have hd : s.outputDraw = .accepts := by
      unfold State.outputDraw
      cases hs : s.outputDraws with
      | nil => rfl
      | cons d ds => exact h d (by simp [hs])
    rcases consoleWrite_cases b s with ⟨hf, _⟩ | ⟨_, e⟩
    · rw [hd] at hf; cases hf
    · rw [consoleWriteAll, e, andThen_ok, ih]
      · cases hs : s.outputDraws <;> simp [emitAll, State.spendOutputDraw, State.emit, hs]
      · intro d hm
        refine h d ?_
        cases hs : s.outputDraws with
        | nil => simp [State.spendOutputDraw, hs] at hm
        | cons d' ds => simp [State.spendOutputDraw, hs] at hm ⊢; exact .inr hm

/-- Bytes before a write that fails are appended in order, and the failing write ends the step. -/
theorem consoleWriteAll_fails (bytes : List Byte) (k : Nat) (s : State) (hk : k < bytes.length)
    (h : ∀ d ∈ s.outputDraws.take k, d = .accepts) (hf : s.outputDraws[k]? = some .fails) :
    consoleWriteAll bytes s =
      .ended (raise .ioFailure (emitAll (bytes.take k) s).spendOutputDraw) := by
  have split : bytes.take k ++ bytes.drop k = bytes := List.take_append_drop k bytes
  have hlen : (bytes.take k).length = k := by simp; omega
  have append : ∀ (xs ys : List Byte) (s : State),
      consoleWriteAll (xs ++ ys) s = (consoleWriteAll xs s).andThen fun _ s => consoleWriteAll ys s := by
    intro xs ys
    induction xs with
    | nil => intro s; rfl
    | cons b rest ih =>
      intro s
      simp only [List.cons_append, consoleWriteAll, ih]
      cases consoleWrite b s <;> rfl
  obtain ⟨b, rest, hb⟩ := List.exists_cons_of_length_pos (l := bytes.drop k) (by simp; omega)
  have hd : (emitAll (bytes.take k) s).outputDraw = .fails := by
    simp [emitAll, State.outputDraw, hlen, List.head?_drop, hf, List.headD_eq_head?_getD]
  rw [← split, append, consoleWriteAll_accepts _ _ (by rwa [hlen]), andThen_ok, hb, consoleWriteAll]
  rcases consoleWrite_cases b (emitAll (bytes.take k) s) with ⟨_, e⟩ | ⟨ha, _⟩
  · rw [e, andThen_ended]
    simp [hlen]
  · rw [hd] at ha; cases ha

/-- What a string walk, or any mix of reads and console writes, leaves unchanged. -/
structure ConsoleOnly (s t : State) : Prop where
  regs : t.regs = s.regs
  pc : t.pc = s.pc
  cond : t.cond = s.cond
  hold : t.hold = s.hold
  params : t.params = s.params
  stream : t.taken ++ t.input = s.taken ++ s.input
  cells : ∀ a, a ≠ kbsrAddr → a ≠ kbdrAddr → t.cell a = s.cell a
  grows : ∃ bytes, t.output = s.output ++ bytes

theorem ReadOnly.console {s t : State} (h : ReadOnly s t) : ConsoleOnly s t :=
  ⟨h.regs, h.pc, h.cond, h.hold, h.params, h.stream, h.cells, [], by simp [h.output]⟩

theorem WriteOnly.console {s t : State} (h : WriteOnly s t) : ConsoleOnly s t :=
  ⟨h.regs, h.pc, h.cond, h.hold, h.params, by rw [h.taken, h.input],
    fun a _ _ => by simp only [State.cell, h.mem], h.grows⟩

theorem ConsoleOnly.trans {s t u : State} (h : ConsoleOnly s t) (k : ConsoleOnly t u) : ConsoleOnly s u := by
  obtain ⟨b, hb⟩ := h.grows
  obtain ⟨c, hc⟩ := k.grows
  exact ⟨k.regs.trans h.regs, k.pc.trans h.pc, k.cond.trans h.cond, k.hold.trans h.hold,
    k.params.trans h.params, k.stream.trans h.stream,
    fun a ha hb => (k.cells a ha hb).trans (h.cells a ha hb), b ++ c, by rw [hc, hb, List.append_assoc]⟩

/-- The string walk of PUTS and PUTSP changes no register, no flag and no cell but the keyboard's. -/
theorem consoleOnly_writeString (bytes : Word → List Byte) (n addr : Nat) (s : State) :
    ConsoleOnly s (left (writeString bytes n addr s)) := by
  induction n generalizing addr s with
  | zero =>
    exact andThen_keeps (ConsoleOnly s) _ _ (readOnly_memRead addr s).console fun _ _ _ h => h
  | succ n ih =>
    refine andThen_keeps (ConsoleOnly s) _ _ (readOnly_memRead addr s).console fun c t _ ht => ?_
    split
    · exact ht
    · exact andThen_keeps (ConsoleOnly s) _ _
        (ht.trans (writeOnly_consoleWriteAll (bytes c) t).console) fun _ u _ hu => hu.trans (ih _ u)

end Sys2Proof.Machine.Laws
end

