-- ==== Sys2Proof/Laws/Image.lean ====
section
/-! SUPPORT. What the image loader does to one cell, and that it keeps the canonical form. -/

namespace Sys2Proof.Machine.Laws

/-- A cell after a load: the word placed there, if one is and the address exists, else what it was. -/
theorem read_loadWords (words : List Word) (addr k : Nat) (m : Memory) :
    (loadWords words addr m).read k =
      if addr ≤ k ∧ k < memWords then (words[k - addr]?).getD (m.read k) else m.read k := by
  induction words generalizing addr m with
  | nil => simp [loadWords]
  | cons w rest ih =>
    simp only [loadWords]
    split
    · rw [if_neg (by omega)]
    · rw [ih]
      by_cases here : k = addr
      · subst here
        rw [if_neg (by omega), if_pos (by omega)]; simp
      · by_cases above : addr + 1 ≤ k ∧ k < memWords
        · have next : k - addr = (k - (addr + 1)) + 1 := by omega
          rw [if_pos above, if_pos (by omega), read_write_ne _ _ _ _ here, next]; simp
        · rw [if_neg above, if_neg (by omega), read_write_ne _ _ _ _ here]

/-- Loading an image keeps the canonical form. -/
theorem wf_loadWords (words : List Word) (addr : Nat) (m : Memory) (h : m.wf) :
    (loadWords words addr m).wf := by
  induction words generalizing addr m with
  | nil => exact h
  | cons w rest ih =>
    simp only [loadWords]
    split
    · exact h
    · exact ih _ _ (wf_write m addr w (by omega) h)

/-- Bytes written pair by pair pair up again. -/
theorem imageWords_pairs (pairs : List (Byte × Byte)) :
    imageWords (pairs.flatMap fun w => [w.1, w.2]) = some (pairs.map fun w => joinBytes w.1 w.2) := by
  induction pairs with
  | nil => rfl
  | cons w rest ih => simp [imageWords, ih]

/-- The words of an image exist exactly if no byte is left over. -/
theorem imageWords_isSome (bytes : List Byte) : (imageWords bytes).isSome = (bytes.length % 2 == 0) := by
  induction bytes using imageWords.induct with
  | case1 => rfl
  | case2 => rfl
  | case3 hi lo rest ih =>
    simp only [imageWords, Option.isSome_map, ih, List.length_cons]
    congr 1
    omega

end Sys2Proof.Machine.Laws
end

