-- ==== Sys2Proof/Laws/PerInstr.lean ====
section
/-! SUPPORT. Statements made per instruction: the top nibble of an encoding is the opcode that the opcode
map of 30_encoding.md R96 gives the instruction. -/

namespace Sys2Proof.Laws.EncodedOpcode

/-- The opcode map of R96. -/
def opcodeOf : Instr → BitVec 4
  | .br _ _ _ _ => 0b0000
  | .addReg _ _ _ => 0b0001
  | .addImm _ _ _ => 0b0001
  | .ld _ _ => 0b0010
  | .st _ _ => 0b0011
  | .jsr _ => 0b0100
  | .jsrr _ => 0b0100
  | .andReg _ _ _ => 0b0101
  | .andImm _ _ _ => 0b0101
  | .ldr _ _ _ => 0b0110
  | .str _ _ _ => 0b0111
  | .rti => 0b1000
  | .not _ _ => 0b1001
  | .ldi _ _ => 0b1010
  | .sti _ _ => 0b1011
  | .jmp _ => 0b1100
  | .ret => 0b1100
  | .reserved => 0b1101
  | .lea _ _ => 0b1110
  | .trapGetc => 0b1111
  | .trapOut => 0b1111
  | .trapPuts => 0b1111
  | .trapIn => 0b1111
  | .trapPutsp => 0b1111
  | .trapHalt => 0b1111
  | .trapInvalid _ => 0b1111

/-- The encoding's opcode field is the instruction's opcode. -/
def Statement (i : Instr) : Prop := opcodeField (encode i) = opcodeOf i

theorem addReg (dr sr1 sr2 : Reg) : Statement (.addReg dr sr1 sr2) :=
  BitVec.eq_of_getLsbD_eq fun k hk => by
    simp only [opcodeOf, opcodeField, encode, extract_word, BitVec.getLsbD_extractLsb', BitVec.getLsbD_append]
    interval_cases k <;> simp

theorem addImm (dr sr1 : Reg) (imm : Word) : Statement (.addImm dr sr1 imm) :=
  BitVec.eq_of_getLsbD_eq fun k hk => by
    simp only [opcodeOf, opcodeField, encode, extract_word, BitVec.getLsbD_extractLsb', BitVec.getLsbD_append]
    interval_cases k <;> simp

theorem andReg (dr sr1 sr2 : Reg) : Statement (.andReg dr sr1 sr2) :=
  BitVec.eq_of_getLsbD_eq fun k hk => by
    simp only [opcodeOf, opcodeField, encode, extract_word, BitVec.getLsbD_extractLsb', BitVec.getLsbD_append]
    interval_cases k <;> simp

theorem andImm (dr sr1 : Reg) (imm : Word) : Statement (.andImm dr sr1 imm) :=
  BitVec.eq_of_getLsbD_eq fun k hk => by
    simp only [opcodeOf, opcodeField, encode, extract_word, BitVec.getLsbD_extractLsb', BitVec.getLsbD_append]
    interval_cases k <;> simp

theorem not (dr sr : Reg) : Statement (.not dr sr) :=
  BitVec.eq_of_getLsbD_eq fun k hk => by
    simp only [opcodeOf, opcodeField, encode, extract_word, BitVec.getLsbD_extractLsb', BitVec.getLsbD_append]
    interval_cases k <;> simp

theorem br (n z p : Bool) (offset : Word) : Statement (.br n z p offset) :=
  BitVec.eq_of_getLsbD_eq fun k hk => by
    simp only [opcodeOf, opcodeField, encode, extract_word, BitVec.getLsbD_extractLsb', BitVec.getLsbD_append]
    interval_cases k <;> simp

theorem ret : Statement .ret :=
  BitVec.eq_of_getLsbD_eq fun k hk => by
    simp only [opcodeOf, opcodeField, encode, extract_word, BitVec.getLsbD_extractLsb', BitVec.getLsbD_append]
    interval_cases k <;> simp

theorem jmp (baseR : Reg) : Statement (.jmp baseR) :=
  BitVec.eq_of_getLsbD_eq fun k hk => by
    simp only [opcodeOf, opcodeField, encode, extract_word, BitVec.getLsbD_extractLsb', BitVec.getLsbD_append]
    interval_cases k <;> simp

theorem jsr (offset : Word) : Statement (.jsr offset) :=
  BitVec.eq_of_getLsbD_eq fun k hk => by
    simp only [opcodeOf, opcodeField, encode, extract_word, BitVec.getLsbD_extractLsb', BitVec.getLsbD_append]
    interval_cases k <;> simp

theorem jsrr (baseR : Reg) : Statement (.jsrr baseR) :=
  BitVec.eq_of_getLsbD_eq fun k hk => by
    simp only [opcodeOf, opcodeField, encode, extract_word, BitVec.getLsbD_extractLsb', BitVec.getLsbD_append]
    interval_cases k <;> simp

theorem ld (dr : Reg) (offset : Word) : Statement (.ld dr offset) :=
  BitVec.eq_of_getLsbD_eq fun k hk => by
    simp only [opcodeOf, opcodeField, encode, extract_word, BitVec.getLsbD_extractLsb', BitVec.getLsbD_append]
    interval_cases k <;> simp

theorem ldi (dr : Reg) (offset : Word) : Statement (.ldi dr offset) :=
  BitVec.eq_of_getLsbD_eq fun k hk => by
    simp only [opcodeOf, opcodeField, encode, extract_word, BitVec.getLsbD_extractLsb', BitVec.getLsbD_append]
    interval_cases k <;> simp

theorem ldr (dr baseR : Reg) (offset : Word) : Statement (.ldr dr baseR offset) :=
  BitVec.eq_of_getLsbD_eq fun k hk => by
    simp only [opcodeOf, opcodeField, encode, extract_word, BitVec.getLsbD_extractLsb', BitVec.getLsbD_append]
    interval_cases k <;> simp

theorem lea (dr : Reg) (offset : Word) : Statement (.lea dr offset) :=
  BitVec.eq_of_getLsbD_eq fun k hk => by
    simp only [opcodeOf, opcodeField, encode, extract_word, BitVec.getLsbD_extractLsb', BitVec.getLsbD_append]
    interval_cases k <;> simp

theorem st (sr : Reg) (offset : Word) : Statement (.st sr offset) :=
  BitVec.eq_of_getLsbD_eq fun k hk => by
    simp only [opcodeOf, opcodeField, encode, extract_word, BitVec.getLsbD_extractLsb', BitVec.getLsbD_append]
    interval_cases k <;> simp

theorem sti (sr : Reg) (offset : Word) : Statement (.sti sr offset) :=
  BitVec.eq_of_getLsbD_eq fun k hk => by
    simp only [opcodeOf, opcodeField, encode, extract_word, BitVec.getLsbD_extractLsb', BitVec.getLsbD_append]
    interval_cases k <;> simp

theorem str (sr baseR : Reg) (offset : Word) : Statement (.str sr baseR offset) :=
  BitVec.eq_of_getLsbD_eq fun k hk => by
    simp only [opcodeOf, opcodeField, encode, extract_word, BitVec.getLsbD_extractLsb', BitVec.getLsbD_append]
    interval_cases k <;> simp

theorem rti : Statement .rti :=
  BitVec.eq_of_getLsbD_eq fun k hk => by
    simp only [opcodeOf, opcodeField, encode, extract_word, BitVec.getLsbD_extractLsb', BitVec.getLsbD_append]
    interval_cases k <;> simp

theorem reserved : Statement .reserved :=
  BitVec.eq_of_getLsbD_eq fun k hk => by
    simp only [opcodeOf, opcodeField, encode, extract_word, BitVec.getLsbD_extractLsb', BitVec.getLsbD_append]
    interval_cases k <;> simp

theorem trapGetc : Statement .trapGetc :=
  BitVec.eq_of_getLsbD_eq fun k hk => by
    simp only [opcodeOf, opcodeField, encode, extract_word, BitVec.getLsbD_extractLsb', BitVec.getLsbD_append]
    interval_cases k <;> simp

theorem trapOut : Statement .trapOut :=
  BitVec.eq_of_getLsbD_eq fun k hk => by
    simp only [opcodeOf, opcodeField, encode, extract_word, BitVec.getLsbD_extractLsb', BitVec.getLsbD_append]
    interval_cases k <;> simp

theorem trapPuts : Statement .trapPuts :=
  BitVec.eq_of_getLsbD_eq fun k hk => by
    simp only [opcodeOf, opcodeField, encode, extract_word, BitVec.getLsbD_extractLsb', BitVec.getLsbD_append]
    interval_cases k <;> simp

theorem trapIn : Statement .trapIn :=
  BitVec.eq_of_getLsbD_eq fun k hk => by
    simp only [opcodeOf, opcodeField, encode, extract_word, BitVec.getLsbD_extractLsb', BitVec.getLsbD_append]
    interval_cases k <;> simp

theorem trapPutsp : Statement .trapPutsp :=
  BitVec.eq_of_getLsbD_eq fun k hk => by
    simp only [opcodeOf, opcodeField, encode, extract_word, BitVec.getLsbD_extractLsb', BitVec.getLsbD_append]
    interval_cases k <;> simp

theorem trapHalt : Statement .trapHalt :=
  BitVec.eq_of_getLsbD_eq fun k hk => by
    simp only [opcodeOf, opcodeField, encode, extract_word, BitVec.getLsbD_extractLsb', BitVec.getLsbD_append]
    interval_cases k <;> simp

theorem trapInvalid (code : Byte) : Statement (.trapInvalid code) :=
  BitVec.eq_of_getLsbD_eq fun k hk => by
    simp only [opcodeOf, opcodeField, encode, extract_word, BitVec.getLsbD_extractLsb', BitVec.getLsbD_append]
    interval_cases k <;> simp

end Sys2Proof.Laws.EncodedOpcode
end

