-- ==== Sys2Proof/Laws/Trap.lean ====
section
/-! SUPPORT. The string walk of PUTS and PUTSP over plain cells, and the canonical form along it. -/

namespace Sys2Proof.Machine.Laws

/-- GETC's read: it fails, takes a byte into R0 with its flags, or holds. -/
theorem getcRead_cases (s : State) :
    (s.inputDraw = .fails ∧ getcRead s = .ended (raise .ioFailure (s.spendInputDraw.setHold none))) ∨
    (∃ b, s.inputDraw = .ready ∧ s.available = some b ∧
      getcRead s = .ok () (acceptByte b (s.spendInputDraw.takeByte.setHold none))) ∨
    (s.inputDraw ≠ .fails ∧ s.available = none ∧
      getcRead s = .ended (s.spendInputDraw.setHold (some .getc))) := by
  unfold getcRead
  rcases consoleRead_cases .getc s with ⟨hd, e⟩ | ⟨b, hd, hb, e⟩ | ⟨hd, hb, e⟩ <;> rw [e]
  · exact .inl ⟨hd, rfl⟩
  · exact .inr (.inl ⟨b, hd, hb, rfl⟩)
  · exact .inr (.inr ⟨hd, hb, rfl⟩)

/-- IN's read: it fails; takes a byte that no echo follows; takes one and echoes it; takes one whose echo
fails, with R0 and the flags not yet written; or holds. -/
theorem inRead_cases (s : State) :
    (s.inputDraw = .fails ∧ inRead s = .ended (raise .ioFailure (s.spendInputDraw.setHold none))) ∨
    (∃ b, s.inputDraw = .ready ∧ s.available = some b ∧ s.params.inEcho = false ∧
      inRead s = .ok () (acceptByte b (s.spendInputDraw.takeByte.setHold none))) ∨
    (∃ b, s.inputDraw = .ready ∧ s.available = some b ∧ s.params.inEcho = true ∧ s.outputDraw = .accepts ∧
      inRead s = .ok () (acceptByte b ((s.spendInputDraw.takeByte.setHold none).spendOutputDraw.emit b))) ∨
    (∃ b, s.inputDraw = .ready ∧ s.available = some b ∧ s.params.inEcho = true ∧ s.outputDraw = .fails ∧
      inRead s = .ended (raise .ioFailure (s.spendInputDraw.takeByte.setHold none).spendOutputDraw)) ∨
    (s.inputDraw ≠ .fails ∧ s.available = none ∧
      inRead s = .ended (s.spendInputDraw.setHold (some .inService))) := by
  unfold inRead
  rcases consoleRead_cases .inService s with ⟨hd, e⟩ | ⟨b, hd, hb, e⟩ | ⟨hd, hb, e⟩ <;> rw [e]
  · exact .inl ⟨hd, rfl⟩
  · right
    simp only [andThen_ok, setHold_params, takeByte_params, spendInputDraw_params]
    by_cases he : s.params.inEcho = true
    · have same : (s.spendInputDraw.takeByte.setHold none).outputDraw = s.outputDraw := rfl
      rcases consoleWrite_cases b (s.spendInputDraw.takeByte.setHold none) with ⟨ho, e⟩ | ⟨ho, e⟩ <;>
        rw [same] at ho
      · exact .inr (.inr (.inl ⟨b, hd, hb, he, ho, by simp [he, e]⟩))
      · exact .inr (.inl ⟨b, hd, hb, he, ho, by simp [he, e]⟩)
    · exact .inl ⟨b, hd, hb, by simpa using he, by simp [he]⟩
  · exact .inr (.inr (.inr (.inr ⟨hd, hb, rfl⟩)))

/-- The bytes a walk writes for the `n` cells from `addr`. -/
def walkText (bytes : Word → List Byte) (s : State) (addr n : Nat) : List Byte :=
  (List.range n).flatMap fun k => bytes (s.cell (addr + k))

theorem walkText_succ (bytes : Word → List Byte) (s : State) (addr n : Nat) :
    walkText bytes s addr (n + 1) = bytes (s.cell addr) ++ walkText bytes s (addr + 1) n := by
  simp [walkText, List.range_succ_eq_map, List.flatMap_map, Nat.add_assoc, Nat.add_comm 1]

/-- Over `n` cells that are neither zero nor the keyboard status, with a sink that accepts, the walk
writes their bytes and goes on at the cell after them. -/
theorem writeString_plain (bytes : Word → List Byte) (n m addr : Nat) (s : State)
    (hm : addr + (m + n) = memWords)
    (hp : ∀ k, k < n → s.cell (addr + k) ≠ 0x0000 ∧ addr + k ≠ kbsrAddr)
    (hd : ∀ d ∈ s.outputDraws.take (walkText bytes s addr n).length, d = .accepts) :
    writeString bytes (m + n) addr s =
      writeString bytes m (addr + n) (emitAll (walkText bytes s addr n) s) := by
  induction n generalizing addr s with
  | zero => simp [walkText, emitAll]
  | succ n ih =>
    obtain ⟨hz, hk⟩ : s.cell addr ≠ 0x0000 ∧ addr ≠ kbsrAddr := hp 0 (by omega)
    rw [walkText_succ, List.length_append, List.take_add] at hd
    have head := consoleWriteAll_accepts (bytes (s.cell addr)) s fun d h => hd d (by simp [h])
    have tail := ih (addr + 1) (emitAll (bytes (s.cell addr)) s) (by omega)
      (fun k h => by
        have := hp (k + 1) (by omega)
        rwa [show addr + (k + 1) = addr + 1 + k by omega] at this)
      (fun d h => hd d (List.mem_append_right _ h))
    have same : walkText bytes (emitAll (bytes (s.cell addr)) s) (addr + 1) n
        = walkText bytes s (addr + 1) n := rfl
    rw [same] at tail
    rw [← Nat.add_assoc, writeString, memRead_plain addr s (by omega) hk, andThen_ok,
      if_neg hz, head, andThen_ok, tail, walkText_succ, show addr + 1 + n = addr + (n + 1) by omega]
    simp [emitAll, List.append_assoc]

/-- The canonical form is kept along a string walk. -/
theorem wf_writeString (bytes : Word → List Byte) (n addr : Nat) (s : State) (h : s.mem.wf) :
    (left (writeString bytes n addr s)).mem.wf := by
  induction n generalizing addr s with
  | zero => exact andThen_keeps (·.mem.wf) _ _ (wf_memRead addr s h) fun _ _ _ ht => ht
  | succ n ih =>
    refine andThen_keeps (·.mem.wf) _ _ (wf_memRead addr s h) fun c t _ ht => ?_
    split
    · exact ht
    · refine andThen_keeps (·.mem.wf) _ _ ?_ fun _ u _ hu => ih _ u hu
      rw [(writeOnly_consoleWriteAll (bytes c) t).mem]; exact ht

end Sys2Proof.Machine.Laws
end

