-- ==== Sys2Proof/Laws/Step.lean ====
section
/-! SUPPORT. The step: what it does in each of its four cases, what a fetch leaves, and the induction
along a run, packaged once. -/

namespace Sys2Proof.Machine.Laws

/-- Every way a step answers a next state. -/
theorem step_cases {s t : State} (h : step s = .next t) :
    s.run = .running ∧
      ((∃ service, s.hold = some service ∧ t = left (resumeRead service s)) ∨
       (s.hold = none ∧ memRead s.pc.toNat s = .ended t) ∨
       (∃ w u, s.hold = none ∧ memRead s.pc.toNat s = .ok w u ∧
         exec (decode w) (u.setPc (u.pc + 1)) = .next t)) := by
  unfold step at h
  split at h
  · cases h
  · next hr =>
    refine ⟨hr, ?_⟩
    split at h
    · next service hs =>
      rw [outcome_eq] at h
      exact .inl ⟨service, hs, by cases h; rfl⟩
    · next hn =>
      right
      cases hm : memRead s.pc.toNat s with
      | ended u =>
        simp only [fetch, hm, andThen_ended] at h
        exact .inl ⟨hn, by cases h; rfl⟩
      | ok w u =>
        simp only [fetch, hm, andThen_ok, advancePc_eq] at h
        exact .inr ⟨w, u, hn, rfl, h⟩

/-- After a fetch that goes on, the cell before the advanced pc holds the fetched word. -/
theorem fetchedWord_after_fetch {s u : State} {w : Word} (h : memRead s.pc.toNat s = .ok w u) :
    fetchedWord (u.setPc (u.pc + 1)) = w := by
  have hp : u.pc = s.pc := by simpa [h] using (readOnly_memRead s.pc.toNat s).pc
  have back : u.pc + 1 - 1 = s.pc := by simp [hp]
  simp only [fetchedWord, setPc_pc, cell_setPc, back]
  rcases memRead_cases s.pc.toNat s with ⟨_, e⟩ | ⟨_, _, e⟩ | ⟨b, hk, _, _, e⟩ | ⟨hk, _, _, e⟩ | ⟨_, _, e⟩ <;>
    rw [e] at h <;> cases h
  · rw [hk]; exact cell_polledByte_kbsr b s
  · rw [hk]; exact cell_polledNothing_kbsr s
  · rfl

/-- What every step keeps holds of every state a run reaches. -/
theorem reaches_keeps (P : State → Prop) (keeps : ∀ s t, P s → step s = .next t → P t) {s t : State}
    (h : Reaches s t) (hs : P s) : P t := by
  induction h with
  | refl => exact hs
  | step first _ ih => exact ih (keeps _ _ hs first)

end Sys2Proof.Machine.Laws
end

