-- ==== Sys2Proof/Tests/Slice0.lean ====
section
/-! SUPPORT. The package's own tests: ill-formed terms the check refuses; words written out from the
encodings of spec/30_encoding.md and spec/95_test_vectors.md (V-DEC); one step or one service per
instruction with the expected result of 95_test_vectors.md (the vector's id in the comment); and for
each statement with hypotheses a state and operands that meet them. -/

namespace Sys2Proof.Machine.Tests

/-! ### WellFormed refuses an ill-formed term for each of its checks -/

theorem test_wf_addImm : (Instr.addImm 0 0 0x0010).wellFormed = false := by decide
theorem test_wf_andImm : (Instr.andImm 0 0 0xFFEF).wellFormed = false := by decide
theorem test_wf_br : (Instr.br true true true 0x0100).wellFormed = false := by decide
theorem test_wf_jmp : (Instr.jmp 7).wellFormed = false := by decide
theorem test_wf_jsr : (Instr.jsr 0x0400).wellFormed = false := by decide
theorem test_wf_ld : (Instr.ld 0 0xFEFF).wellFormed = false := by decide
theorem test_wf_ldi : (Instr.ldi 0 0x0100).wellFormed = false := by decide
theorem test_wf_ldr : (Instr.ldr 0 0 0x0020).wellFormed = false := by decide
theorem test_wf_lea : (Instr.lea 0 0x8000).wellFormed = false := by decide
theorem test_wf_st : (Instr.st 0 0x0100).wellFormed = false := by decide
theorem test_wf_sti : (Instr.sti 0 0xFEFF).wellFormed = false := by decide
theorem test_wf_str : (Instr.str 0 0 0xFFDF).wellFormed = false := by decide
theorem test_wf_trapInvalid : (Instr.trapInvalid 0x25).wellFormed = false := by decide

/-! ### Decoding: words bit by bit (V-DEC, and the examples of the instruction rules) -/

theorem test_decode_addReg : decode 0b0001_000_001_0_00_010 = .addReg 0 1 2 := by decide
theorem test_decode_addReg_ignored : decode 0b0001_000_000_0_11_000 = .addReg 0 0 0 := by decide
theorem test_decode_addImm : decode 0b0001_000_000_1_10000 = .addImm 0 0 0xFFF0 := by decide
theorem test_decode_andReg : decode 0b0101_011_100_0_00_101 = .andReg 3 4 5 := by decide
theorem test_decode_andImm : decode 0b0101_111_111_1_11111 = .andImm 7 7 0xFFFF := by decide
theorem test_decode_not : decode 0b1001_100_101_111111 = .not 4 5 := by decide
theorem test_decode_br : decode 0b0000_1_0_0_111111110 = .br true false false 0xFFFE := by decide
theorem test_decode_ret : decode 0b1100_111_111_000000 = .ret := by decide
theorem test_decode_jmp : decode 0b1100_000_010_000000 = .jmp 2 := by decide
theorem test_decode_jsr : decode 0b0100_1_10000000000 = .jsr 0xFC00 := by decide
theorem test_decode_jsrr : decode 0b0100_0_11_111_111111 = .jsrr 7 := by decide
theorem test_decode_ld : decode 0b0010_000_111111111 = .ld 0 0xFFFF := by decide
theorem test_decode_ldi : decode 0b1010_001_111111101 = .ldi 1 0xFFFD := by decide
theorem test_decode_ldr : decode 0b0110_010_011_100000 = .ldr 2 3 0xFFE0 := by decide
theorem test_decode_lea : decode 0b1110_100_100000000 = .lea 4 0xFF00 := by decide
theorem test_decode_st : decode 0b0011_101_011111111 = .st 5 0x00FF := by decide
theorem test_decode_sti : decode 0b1011_110_000000001 = .sti 6 0x0001 := by decide
theorem test_decode_str : decode 0b0111_111_000_011111 = .str 7 0 0x001F := by decide
theorem test_decode_rti : decode 0b1000_111111111111 = .rti := by decide
theorem test_decode_reserved : decode 0b1101_111111111111 = .reserved := by decide
theorem test_decode_getc : decode 0b1111_0001_00100000 = .trapGetc := by decide
theorem test_decode_out : decode 0b1111_0000_00100001 = .trapOut := by decide
theorem test_decode_puts : decode 0b1111_0000_00100010 = .trapPuts := by decide
theorem test_decode_in : decode 0b1111_0000_00100011 = .trapIn := by decide
theorem test_decode_putsp : decode 0b1111_0000_00100100 = .trapPutsp := by decide
theorem test_decode_halt : decode 0b1111_1111_00100101 = .trapHalt := by decide
theorem test_decode_invalid : decodeWord 0b1111_0000_00100110 = .error .decodeFailure := by decide
theorem test_decode_table_row : decodeTableWord 16 0xF000 = some (.trapInvalid 0x00) := by decide
theorem test_encode_sti : encode (.sti 6 0x0001) = 0xBC01 := by decide

/-! ### Steps -/

/-- A machine about to fetch `w` at `at_`, with these registers, flags, other cells and input. -/
def fetching (w : Word) (at_ : Word) (regs : Vector Word 8) (cond : Cond := .unset)
    (cells : Memory := []) (input : List Byte := []) : State :=
  let others : Memory := cells.foldr (fun c (m : Memory) => Memory.write m c.1 c.2) []
  { State.reset with
    pc := at_, regs := regs, cond := cond, input := input, mem := Memory.write others at_.toNat w }

/-- What a step leaves, if it answers a next state. -/
def after (s : State) : Option State :=
  match step s with
  | .next t => some t
  | .fault _ => none
  | .refused _ => none

/-- One register, the flags and pc after a step. -/
def shows (s : State) (r : Reg) : Option (Word × Cond × Word) := (after s).map fun t => (t.reg r, t.cond, t.pc)

/-- V-ALU-2. -/
theorem test_addReg : shows (fetching 0x1042 0x3000 #v[0, 0xFFFF, 1, 0, 0, 0, 0, 0]) 0
    = some (0x0000, .zero, 0x3001) := by decide
/-- V-CY-1. -/
theorem test_addImm : shows (fetching 0x1021 0xFFFF #v[5, 0, 0, 0, 0, 0, 0, 0]) 0
    = some (0x0006, .positive, 0x0000) := by decide
/-- V-ALU-10. -/
theorem test_andReg : shows (fetching 0x5042 0x3000 #v[0, 0x8001, 0x8000, 0, 0, 0, 0, 0]) 0
    = some (0x8000, .negative, 0x3001) := by decide
/-- V-ALU-11. -/
theorem test_andImm : shows (fetching 0x5070 0x3000 #v[0, 0xFFFF, 0, 0, 0, 0, 0, 0]) 0
    = some (0xFFF0, .negative, 0x3001) := by decide
/-- V-ALU-18. -/
theorem test_not : shows (fetching 0x9240 0x3000 #v[0, 0x00FF, 0, 0, 0, 0, 0, 0]) 1
    = some (0xFF00, .negative, 0x3001) := by decide
/-- V-BR-1. -/
theorem test_br_wraps : shows (fetching 0x0E02 0xFFFE #v[0, 0, 0, 0, 0, 0, 0, 0] .zero) 0
    = some (0, .zero, 0x0001) := by decide
/-- V-BR table, nzp = 111 with cond = Unset. -/
theorem test_br_unset : shows (fetching 0x0E04 0x3000 #v[0, 0, 0, 0, 0, 0, 0, 0]) 0
    = some (0, .unset, 0x3001) := by decide
/-- V-CT-2. -/
theorem test_jmp : shows (fetching 0xCFBF 0x3000 #v[0, 0, 0, 0, 0, 0, 0x1234, 0]) 0
    = some (0, .unset, 0x1234) := by decide
/-- V-CT-4. -/
theorem test_ret : shows (fetching 0xCBC0 0x3000 #v[0, 0, 0, 0, 0, 0, 0, 0x4444]) 7
    = some (0x4444, .unset, 0x4444) := by decide
/-- V-CT-8. -/
theorem test_jsr : shows (fetching 0x4FFF 0xFFFF #v[0, 0, 0, 0, 0, 0, 0, 5]) 7
    = some (0x0000, .unset, 0xFFFF) := by decide
/-- V-CT-10. -/
theorem test_jsrr_r7 : shows (fetching 0x41C0 0x3000 #v[0, 0, 0, 0, 0, 0, 0, 0x6000]) 7
    = some (0x3001, .unset, 0x3001) := by decide
/-- V-CT-11. -/
theorem test_jsrr_r7_base_first :
    shows { fetching 0x41C0 0x3000 #v[0, 0, 0, 0, 0, 0, 0, 0x6000] with
      params := { defaultParams with jsrrLinkFirst := false } } 7 = some (0x3001, .unset, 0x6000) := by decide
/-- V-LS-2. -/
theorem test_ld : shows (fetching 0x2020 0xFFEF #v[9, 0, 0, 0, 0, 0, 0, 0]) 0
    = some (0x0000, .zero, 0xFFF0) := by decide
/-- V-LS-4: the pointer holds 0xFE00 and a byte is there. -/
theorem test_ldi_polls :
    (after (fetching 0xA001 0x3000 #v[0, 0, 0, 0, 0, 0, 0, 0] .unset [(0x3002, 0xFE00)] [0x41])).map
      (fun t => (t.reg 0, t.cell 0xFE00, t.cell 0xFE02, t.input, t.taken))
    = some (0x8000, 0x8000, 0x0041, [], [0x41]) := by decide
/-- V-LS-7. -/
theorem test_ldr : shows (fetching 0x6241 0x3000 #v[0, 0x4000, 0, 0, 0, 0, 0, 0] .unset [(0x4001, 0x8000)]) 1
    = some (0x8000, .negative, 0x3001) := by decide
/-- V-KB-3: a poll that does not consume. -/
theorem test_ldr_poll_keeps_byte :
    (after { fetching 0x6040 0x3000 #v[0, 0xFE00, 0, 0, 0, 0, 0, 0] .unset [] [0x61, 0x62] with
      params := { defaultParams with kbdPollConsumes := false } }).map
      (fun t => (t.reg 0, t.cell 0xFE02, t.input)) = some (0x8000, 0x0061, [0x61, 0x62]) := by decide
/-- V-LS-13: no poll. -/
theorem test_lea :
    (after (fetching 0xE000 0xFDFF #v[0, 0, 0, 0, 0, 0, 0, 0] .unset [] [0x41])).map
      (fun t => (t.reg 0, t.cond, t.cell 0xFE00, t.input)) = some (0xFE00, .negative, 0x0000, [0x41]) := by decide
/-- V-LS-15. -/
theorem test_st : (after (fetching 0x3000 0xFDFF #v[0x1234, 0, 0, 0, 0, 0, 0, 0])).map
    (fun t => (t.cell 0xFE00, t.cond, t.pc)) = some (0x1234, .unset, 0xFE00) := by decide
/-- V-LS-17: the pointer cell is 0xFE00 itself. -/
theorem test_sti_polls :
    (after (fetching 0xB000 0xFDFF #v[0x5555, 0, 0, 0, 0, 0, 0, 0] .unset [] [0x41])).map
      (fun t => (t.cell 0x8000, t.cell 0xFE00, t.cell 0xFE02)) = some (0x5555, 0x8000, 0x0041) := by decide
/-- V-LS-20. -/
theorem test_str : (after (fetching 0x707F 0x3000 #v[0x9999, 0, 0, 0, 0, 0, 0, 0])).map
    (fun t => (t.cell 0xFFFF, t.pc)) = some (0x9999, 0x3001) := by decide
/-- V-SYS-1. -/
theorem test_rti : shows (fetching 0x8000 0x3000 #v[0, 0, 0, 0, 0, 0, 0x1234, 0x2222] .negative) 7
    = some (0x2222, .negative, 0x3001) := by decide
/-- V-SYS-4. -/
theorem test_reserved : (after (fetching 0xDFFF 0xFFFF #v[0, 0, 0, 0, 0, 0, 0, 0])).map
    (fun t => (t.run, t.pc)) = some (.halted (.illegalInstruction 0xDFFF), 0x0000) := by decide
/-- V-TR-2. -/
theorem test_getc :
    (after (fetching 0xF020 0x3000 #v[0, 0, 0, 0, 0, 0, 0, 0] .unset [] [0xFF])).map
      (fun t => (t.reg 0, t.reg 7, t.cond, t.input)) = some (0x00FF, 0x3001, .positive, []) := by decide
/-- V-TR-3: the step holds. -/
theorem test_getc_holds :
    (after (fetching 0xF020 0x3000 #v[0x1111, 0, 0, 0, 0, 0, 0, 0])).map
      (fun t => (t.reg 0, t.reg 7, t.pc, t.run, t.hold))
    = some (0x1111, 0x3001, 0x3001, .running, some .getc) := by decide
/-- V-TR-4. -/
theorem test_out : (after (fetching 0xF021 0x3000 #v[0xFF00, 0, 0, 0, 0, 0, 0, 0])).map
    (fun t => (t.reg 0, t.reg 7, t.output)) = some (0xFF00, 0x3001, [0x00]) := by decide
/-- V-TR-7: past the top of memory. -/
theorem test_puts_out_of_bounds :
    (after (fetching 0xF022 0x3000 #v[0xFFFE, 0, 0, 0, 0, 0, 0, 0] .unset
      [(0xFFFE, 0x0041), (0xFFFF, 0x0042)])).map (fun t => (t.run, t.output, t.reg 7))
    = some (.halted (.outOfBoundsAccess 65536), [0x41, 0x42], 0x3001) := by decide
/-- V-TR-18: the string runs into 0xFE00, which polls. -/
theorem test_puts_polls :
    (after (fetching 0xF022 0x3000 #v[0xFDFF, 0, 0, 0, 0, 0, 0, 0] .unset [(0xFDFF, 0x0041)] [0x42])).map
      (fun t => (t.output, t.cell 0xFE02, t.input)) = some ([0x41, 0x00], 0x0042, []) := by decide
/-- V-TR-11: prompt and echo. -/
theorem test_in :
    (after { fetching 0xF023 0x3000 #v[0, 0, 0, 0, 0, 0, 0, 0] .unset [] [0x37] with
      params := { defaultParams with inPrompt := [0x3E], inEcho := true } }).map
      (fun t => (t.reg 0, t.cond, t.output)) = some (0x0037, .positive, [0x3E, 0x37]) := by decide
/-- V-TR-8. -/
theorem test_putsp :
    (after (fetching 0xF024 0x3000 #v[0x4000, 0, 0, 0, 0, 0, 0, 0] .unset
      [(0x4000, 0x4100), (0x4001, 0x0042)])).map (fun t => (t.output, t.run))
    = some ([0x00, 0x41, 0x42], .running) := by decide
/-- V-TR-12. -/
theorem test_halt : (after (fetching 0xF025 0xFFFF #v[0, 0, 0, 0, 0, 0, 0, 9])).map
    (fun t => (t.reg 7, t.pc, t.run)) = some (0x0000, 0x0000, .halted .halt) := by decide
/-- V-TR-14. -/
theorem test_invalid : (after (fetching 0xF026 0x3000 #v[0, 0, 0, 0, 0, 0, 0, 0x1234])).map
    (fun t => (t.reg 7, t.pc, t.run)) = some (0x1234, 0x3001, .halted (.decodeFailure 0xF026)) := by decide
/-- V-CY-3: the fetch at 0xFE00 polls and runs the polled word, not the stored HALT. -/
theorem test_fetch_polls : (after (fetching 0xF025 0xFE00 #v[0, 0, 0, 0, 0, 0, 0, 0])).map
    (fun t => (t.pc, t.cell 0xFE00, t.run)) = some (0xFE01, 0x0000, .running) := by decide
/-- V-IMG-2: the second word is past the last valid address. -/
theorem test_image_top : (loadImage [0xFF, 0xFF, 0x12, 0x34, 0x56, 0x78] State.reset).map State.mem
    = some [(0xFFFF, 0x1234)] := by decide
/-- V-IMG-5. -/
theorem test_image_odd : loadImage [0x30, 0x00, 0x12] State.reset = none := by decide
/-- The word of a table row runs as the first instruction after reset. -/
theorem test_withFetchWord : (after (State.reset.withFetchWord 16 0xF025)).map State.run
    = some (.halted .halt) := by decide

/-! ### Witnesses: states and operands that meet the hypotheses of the statements -/

/-- A running machine with these registers and cells, nothing else set. -/
def machine (regs : Vector Word 8) (cells : Memory := []) (input : List Byte := [])
    (inputDraws : List InputDraw := []) : State :=
  { State.reset with regs := regs, mem := cells, input := input, inputDraws := inputDraws }

/-- A machine whose IN prompts with one byte, with these draws. -/
def prompting (outputDraws : List OutputDraw) (inputDraws : List InputDraw) (input : List Byte)
    (echo : Bool) : State :=
  { State.reset with
    outputDraws := outputDraws, inputDraws := inputDraws, input := input,
    params := { defaultParams with inPrompt := [0x3E], inEcho := echo } }

theorem witness_DecodeOfEncodeIsTheInstruction :
    (Instr.addImm 7 7 0xFFF0).wellFormed = true ∧ (Instr.br true true true 0x00FF).wellFormed = true ∧
      (Instr.jsr 0xFC00).wellFormed = true ∧ (Instr.ldr 0 7 0xFFE0).wellFormed = true ∧
      (Instr.jmp 6).wellFormed = true ∧ (Instr.trapInvalid 0x1F).wellFormed = true ∧
      (Instr.trapInvalid 0x26).wellFormed = true :=
  ⟨by decide, by decide, by decide, by decide, by decide, by decide, by decide⟩
theorem witness_SignExtensionReadsLowBitsAsSigned :
    5 ∈ [5, 6, 9, 11] ∧ (0x0010 : Word).getLsbD 4 = true ∧ (0x000F : Word).getLsbD 4 = false := by decide
theorem witness_TrapCodesNameSixServices :
    (0xF020 : Word).extractLsb' 12 4 = 0b1111#4 ∧ (0xF020 : Word).extractLsb' 0 8 = 0x20#8 ∧
      (0xF025 : Word).extractLsb' 12 4 = 0b1111#4 ∧ (0xF025 : Word).extractLsb' 0 8 = 0x25#8 ∧
      (0xF01F : Word).extractLsb' 12 4 = 0b1111#4 ∧ ((0xF01F : Word).extractLsb' 0 8).toNat < 0x20 ∧
      (0xF026 : Word).extractLsb' 12 4 = 0b1111#4 ∧ 0x25 < ((0xF026 : Word).extractLsb' 0 8).toNat := by decide
theorem witness_FormatsPlaceEachField : (6 : BitVec 3) ≠ 7 := by decide
/-- A load, and GETC with its byte there. -/
theorem witness_EveryFlagSetterClassifiesItsResult :
    (∃ t, flagsFrom (.ld 3 0) = some 3 ∧ exec (.ld 3 0) State.reset = .next t ∧ t.Fetching) ∧
      ∃ t, flagsFrom .trapGetc = some 0 ∧ exec .trapGetc (State.reset.deliver [0x41]) = .next t ∧ t.Fetching :=
  ⟨⟨_, rfl, rfl, rfl, rfl⟩, ⟨_, rfl, rfl, rfl, rfl⟩⟩
theorem witness_SubtractionIdiomComputesDifference : (3 : Reg) ≠ 1 := by decide
theorem witness_BranchTakenIffBitsMeetCondition :
    ((State.reset).cond = .unset) ∧ (fetching 0 0 #v[0, 0, 0, 0, 0, 0, 0, 0] .negative).cond = .negative := by
  decide
theorem witness_BranchWithoutBitsOrFlagsIsNoOp :
    (false = false ∧ false = false ∧ false = false) ∧ State.reset.cond = .unset := by decide
theorem witness_JsrrLinksAndJumpsThroughBase :
    State.reset.params.jsrrLinkFirst = true ∧ (6 : Reg) ≠ 7 ∧
      { State.reset with params := { defaultParams with jsrrLinkFirst := false } }.params.jsrrLinkFirst = false := by
  decide
/-- LD at pc 0x3000 with offset 2, and LDR from 0xFE00, whose poll goes through or fails. -/
theorem witness_LoadsReadTheAddressedCell :
    let polls := machine #v[0, 0xFE00, 0, 0, 0, 0, 0, 0]
    let fails := machine #v[0, 0xFE00, 0, 0, 0, 0, 0, 0] [] [] [.fails]
    (pcRelative 2 State.reset).toNat ≠ 0xFE00 ∧
      ((baseOffset 1 0 polls).toNat = 0xFE00 ∧ polls.inputDraw ≠ .fails) ∧
      ((baseOffset 1 0 fails).toNat = 0xFE00 ∧ fails.inputDraw = .fails) := by decide
/-- A plain pointer cell that holds 0xFE00, whose poll goes through or fails, and the same of a pointer
cell that is 0xFE00 itself. -/
theorem witness_LdiLoadsThroughItsPointerCell :
    let plain := machine #v[0, 0, 0, 0, 0, 0, 0, 0] [(0x3001, 0xFE00)]
    let fails := machine #v[0, 0, 0, 0, 0, 0, 0, 0] [(0x3001, 0xFE00)] [] [.fails]
    ((pcRelative 1 plain).toNat ≠ 0xFE00 ∧ (plain.cell (pcRelative 1 plain).toNat).toNat = 0xFE00 ∧
      plain.inputDraw ≠ .fails) ∧
    ((pcRelative 1 fails).toNat ≠ 0xFE00 ∧ (fails.cell (pcRelative 1 fails).toNat).toNat = 0xFE00 ∧
      fails.inputDraw = .fails) ∧
    ((pcRelative 0 (plain.setPc 0xFE00)).toNat = 0xFE00 ∧ (plain.setPc 0xFE00).inputDraw ≠ .fails) ∧
    ((pcRelative 0 (fails.setPc 0xFE00)).toNat = 0xFE00 ∧ (fails.setPc 0xFE00).inputDraw = .fails) := by decide
theorem witness_StiStoresThroughItsPointerCell :
    let polls := State.reset.setPc 0xFE00
    let fails := (machine #v[0, 0, 0, 0, 0, 0, 0, 0] [] [] [.fails]).setPc 0xFE00
    (pcRelative 1 State.reset).toNat ≠ 0xFE00 ∧
      ((pcRelative 0 polls).toNat = 0xFE00 ∧ polls.inputDraw ≠ .fails) ∧
      ((pcRelative 0 fails).toNat = 0xFE00 ∧ fails.inputDraw = .fails) := by decide
theorem witness_MemReadChecksBoundThenPolls :
    (65536 ≤ 65536 ∧ 65535 < 65536 ∧ 65535 ≠ 0xFE00) ∧ (∃ u, keyboardPoll State.reset = .ok () u) ∧
      ∃ u, keyboardPoll (machine #v[0, 0, 0, 0, 0, 0, 0, 0] [] [] [.fails]) = .ended u :=
  ⟨by decide, ⟨_, rfl⟩, ⟨_, rfl⟩⟩
theorem witness_KeyboardPollUpdatesItsTwoCells :
    (machine #v[0, 0, 0, 0, 0, 0, 0, 0] [] [0x00]).available = some 0x00 ∧
      (machine #v[0, 0, 0, 0, 0, 0, 0, 0] [] [0x41] [.notYet]).available = none ∧
      (machine #v[0, 0, 0, 0, 0, 0, 0, 0] [] [0x41] [.notYet]).inputDraw ≠ .fails ∧
      (machine #v[0, 0, 0, 0, 0, 0, 0, 0] [] [0x41] [.fails]).inputDraw = .fails := by decide
theorem witness_TrapServicesSaveTheAdvancedPc : Instr.trapHalt ∈ trapServices := by decide
theorem witness_GetcTakesOneByte :
    ((machine #v[0, 0, 0, 0, 0, 0, 0, 0] [] [0xFF]).inputDraw = .ready ∧
      (machine #v[0, 0, 0, 0, 0, 0, 0, 0] [] [0xFF]).input = 0xFF :: []) ∧
      (machine #v[0, 0, 0, 0, 0, 0, 0, 0] [] [0xFF] [.fails]).inputDraw = .fails := by decide
/-- IN without echo, where a write after the prompt would fail. -/
theorem witness_InPromptsReadsAndEchoes :
    let s := prompting [.accepts, .fails] [] [0x37] false
    s.inputDraw = .ready ∧ s.input = 0x37 :: [] ∧ s.params.inPrompt = [0x3E] ∧ SinkAccepts s 1 := by
  unfold SinkAccepts
  decide
/-- The prompt's byte fails, the read fails, the echo fails. -/
theorem witness_InKeepsWhatPrecedesItsFailure :
    let prompt := prompting [.fails] [] [0x37] true
    let read := prompting [.accepts] [.fails] [0x37] true
    let echo := prompting [.accepts, .fails] [] [0x37] true
    (0 < prompt.params.inPrompt.length ∧ SinkAccepts prompt 0 ∧ prompt.outputDraws[0]? = some .fails) ∧
    (SinkAccepts read read.params.inPrompt.length ∧ read.inputDraw = .fails) ∧
    (SinkAccepts echo echo.params.inPrompt.length ∧ echo.inputDraw = .ready ∧ echo.input = 0x37 :: [] ∧
      echo.params.inEcho = true ∧ echo.outputDraws[echo.params.inPrompt.length]? = some .fails) := by
  unfold SinkAccepts
  decide
/-- R205: the echo comes before R0 and the flags, so a failing echo leaves them. -/
theorem test_in_failing_echo :
    (after ((prompting [.accepts, .fails] [] [0x37] true).withFetchWord 16 0xF023)).map
      (fun t => (t.reg 0, t.reg 7, t.cond, t.output, t.taken))
    = some (0x0000, 0x3001, .unset, [0x3E], [0x37]) := by decide
theorem witness_HeldReadWaitsForItsByte :
    let held := State.reset.setHold (some .getc)
    let given := (State.reset.setHold (some .inService)).deliver [0x41]
    let fails := { held with inputDraws := [.fails] }
    let echo := (prompting [.fails] [] [0x37] true).setHold (some .inService)
    (held.available = none ∧ held.inputDraw ≠ .fails ∧ held.run = .running ∧ held.hold = some .getc ∧
      SinkAccepts held held.params.inPrompt.length) ∧
    (given.run = .running ∧ given.hold = some .inService ∧ given.inputDraw = .ready ∧
      given.input = 0x41 :: [] ∧ given.outputDraw = .accepts) ∧
    (fails.run = .running ∧ fails.hold = some .getc ∧ fails.inputDraw = .fails) ∧
    (echo.run = .running ∧ echo.hold = some .inService ∧ echo.inputDraw = .ready ∧
      echo.input = 0x37 :: [] ∧ echo.params.inEcho = true ∧ echo.outputDraw = .fails) := by
  unfold SinkAccepts
  decide
theorem witness_OutEmitsTheLowByteOfR0 :
    State.reset.outputDraw = .accepts ∧ { State.reset with outputDraws := [.fails] }.outputDraw = .fails := by
  decide
/-- A string of one cell. -/
theorem witness_PutsEmitsTheStringAtR0 :
    let s := machine #v[0x4000, 0, 0, 0, 0, 0, 0, 0] [(0x4000, 0x0100)]
    PlainText s (s.reg 0).toNat 1 ∧ SinkAccepts s 1 ∧
      (s.reg 0).toNat + 1 < 65536 ∧ s.cell ((s.reg 0).toNat + 1) = 0x0000 ∧ (s.reg 0).toNat + 1 ≠ 0xFE00 := by
  unfold PlainText SinkAccepts
  decide
/-- A string that runs to the top of memory. -/
theorem witness_PutsEmitsTheStringAtR0_top :
    let s := machine #v[0xFFFF, 0, 0, 0, 0, 0, 0, 0] [(0xFFFF, 0x0041)]
    PlainText s (s.reg 0).toNat 1 ∧ SinkAccepts s 1 ∧ (s.reg 0).toNat + 1 = 65536 := by
  unfold PlainText SinkAccepts
  decide
/-- A cell with a zero low byte and a high byte that is not: two bytes. -/
theorem witness_PutspEmitsThePackedStringAtR0 :
    let s := machine #v[0x4000, 0, 0, 0, 0, 0, 0, 0] [(0x4000, 0x4100)]
    PlainText s (s.reg 0).toNat 1 ∧ putspText s 0x4000 1 = [0x00, 0x41] ∧
      SinkAccepts s (putspText s (s.reg 0).toNat 1).length ∧
      (s.reg 0).toNat + 1 < 65536 ∧ s.cell ((s.reg 0).toNat + 1) = 0x0000 ∧ (s.reg 0).toNat + 1 ≠ 0xFE00 := by
  unfold PlainText SinkAccepts
  decide
theorem witness_PutspEmitsThePackedStringAtR0_top :
    let s := machine #v[0xFFFF, 0, 0, 0, 0, 0, 0, 0] [(0xFFFF, 0x0041)]
    PlainText s (s.reg 0).toNat 1 ∧ SinkAccepts s (putspText s (s.reg 0).toNat 1).length ∧
      (s.reg 0).toNat + 1 = 65536 := by
  unfold PlainText SinkAccepts
  decide
theorem witness_ReservedRaisesIllegalInstruction :
    let s := fetching 0xDFFF 0x3000 #v[0, 0, 0, 0, 0, 0, 0, 0]
    s.Fetching ∧ s.pc.toNat ≠ 0xFE00 ∧ s.cell s.pc.toNat = word (0b1101#4 ++ 0xFFF#12) := by decide
theorem witness_RejectedWordRaisesDecodeFailure :
    let s := fetching 0xF01F 0x3000 #v[0, 0, 0, 0, 0, 0, 0, 0]
    s.Fetching ∧ s.pc.toNat ≠ 0xFE00 ∧ s.cell s.pc.toNat = 0xF01F ∧
      decodeWord 0xF01F = .error .decodeFailure := by decide
/-- A plain fetch, a fetch of a rejected word, a fetch that polls, and a fetch whose poll fails. -/
theorem witness_StepRunsTheDecodedInstruction :
    (State.reset.Fetching ∧ State.reset.pc.toNat ≠ 0xFE00 ∧
      decodeWord (State.reset.cell State.reset.pc.toNat) = .ok (.br false false false 0)) ∧
    (∃ u, memRead 0x3000 (fetching 0xF026 0x3000 #v[0, 0, 0, 0, 0, 0, 0, 0]) = .ok 0xF026 u ∧
      decodeWord 0xF026 = .error .decodeFailure) ∧
    (∃ u, memRead 0xFE00 State.reset = .ok 0x0000 u ∧ decodeWord 0x0000 = .ok (.br false false false 0)) ∧
    (∃ u, memRead 0xFE00 (machine #v[0, 0, 0, 0, 0, 0, 0, 0] [] [] [.fails]) = .ended u) ∧
    (∃ u, memRead 0xFFFF (fetching 0xDFFF 0xFFFF #v[0, 0, 0, 0, 0, 0, 0, 0]) = .ok 0xDFFF u ∧
      decodeWord 0xDFFF = .ok .reserved) ∧
    (∃ u, memRead 0x0000 (fetching 0xFF25 0x0000 #v[0, 0, 0, 0, 0, 0, 0, 0]) = .ok 0xFF25 u ∧
      decodeWord 0xFF25 = .ok .trapHalt) ∧
    (raise .halt State.reset).run = .halted .halt :=
  ⟨by decide, ⟨_, rfl, rfl⟩, ⟨_, rfl, rfl⟩, ⟨_, rfl⟩, ⟨_, rfl, rfl⟩, ⟨_, rfl, rfl⟩, rfl⟩
theorem witness_PcIsTheFetchedAddressPlusOne :
    ∃ s t u w, s.Fetching ∧ memRead s.pc.toNat s = .ok w u ∧ step s = .next t ∧ ¬ TransfersControl (decode w) :=
  ⟨fetching 0x8000 0xFFFF #v[0, 0, 0, 0, 0, 0, 0, 0], _, _, 0x8000, by decide, rfl, rfl, id⟩
theorem witness_PcIsTheFetchedAddressPlusOne_link :
    ∃ s t u w, s.Fetching ∧ memRead s.pc.toNat s = .ok w u ∧ step s = .next t ∧ decode w ∈ trapServices :=
  ⟨fetching 0xF021 0xFFFF #v[0, 0, 0, 0, 0, 0, 0, 0], _, _, 0xF021, by decide, rfl, rfl, by decide⟩
theorem witness_HaltedIsFinal : ∃ (s : State) (r : Reason), s.run = .halted r :=
  ⟨raise .halt State.reset, .halt, rfl⟩
/-- One step for each reason a step can end with. -/
theorem witness_EveryHaltHasItsCause :
    (after (fetching 0xF025 0x3000 #v[0, 0, 0, 0, 0, 0, 0, 0])).map State.run = some (.halted .halt) ∧
    (after (fetching 0xF000 0x3000 #v[0, 0, 0, 0, 0, 0, 0, 0])).map State.run
      = some (.halted (.decodeFailure 0xF000)) ∧
    (after (fetching 0xD000 0x3000 #v[0, 0, 0, 0, 0, 0, 0, 0])).map State.run
      = some (.halted (.illegalInstruction 0xD000)) ∧
    (after (fetching 0xF024 0x3000 #v[0xFFFF, 0, 0, 0, 0, 0, 0, 0] .unset [(0xFFFF, 1)])).map State.run
      = some (.halted (.outOfBoundsAccess 65536)) ∧
    (after { fetching 0xF020 0x3000 #v[0, 0, 0, 0, 0, 0, 0, 0] with inputDraws := [.fails] }).map State.run
      = some (.halted .ioFailure) := by decide
/-- A held GETC whose read fails, a held IN whose echo fails, and a fetch at 0xFE00 whose poll fails. -/
theorem witness_EveryHaltHasItsCause_io :
    let getc := { State.reset.setHold (some .getc) with inputDraws := [.fails] }
    let echo := (prompting [.fails] [] [0x37] true).setHold (some .inService)
    let poll := { State.reset.setPc 0xFE00 with inputDraws := [.fails] }
    (after getc).map State.run = some (.halted .ioFailure) ∧ getc.hold = some .getc ∧
    (after echo).map State.run = some (.halted .ioFailure) ∧ echo.hold = some .inService ∧
    (after poll).map State.run = some (.halted .ioFailure) ∧ poll.hold = none ∧
      ∃ u, memRead poll.pc.toNat poll = .ended u :=
  ⟨rfl, rfl, rfl, rfl, rfl, rfl, _, rfl⟩
theorem witness_EveryInstructionAnswersANextState : State.reset.run = .running := rfl
theorem witness_InvariantHoldsAtLaunch :
    ∃ bytes s t, State.Inv s ∧ loadImage bytes s = some t :=
  ⟨[0x30, 0x00, 0xCA, 0xFE], State.reset, _, by decide, rfl⟩
theorem witness_EveryStepKeepsTheInvariant : ∃ s t, State.Inv s ∧ step s = .next t :=
  ⟨fetching 0x31FF 0x3000 #v[0xABCD, 0, 0, 0, 0, 0, 0, 0], _, by decide, rfl⟩
theorem witness_CanonicalMemoriesAreEqualByCells :
    ∃ m m' : Memory, m.wf ∧ m'.wf ∧ (∀ a, m.read a = m'.read a) ∧ m ≠ [] :=
  ⟨[(1, 2), (65535, 1)], [(1, 2), (65535, 1)], by decide, by decide, fun _ => rfl, by decide⟩
theorem witness_UnsetNeverComesBack : ∃ s t, step s = .next t ∧ s.cond ≠ .unset :=
  ⟨fetching 0x8000 0x3000 #v[0, 0, 0, 0, 0, 0, 0, 0] .zero, _, rfl, by decide⟩
theorem witness_OnlyFlagSettersChangeCond : ∃ t, exec .ret State.reset = .next t ∧ ¬ SetsFlags .ret :=
  ⟨_, rfl, by simp [SetsFlags, flagsFrom]⟩
theorem witness_OnlyNamedRegistersChange :
    ∃ t, exec (.not 3 1) State.reset = .next t ∧ ¬ WritesReg (.not 3 1) 1 := ⟨_, rfl, by simp [WritesReg]⟩
theorem witness_OnlyStoresChangeOrdinaryCells :
    (∃ t, exec (.ld 0 0) State.reset = .next t ∧ ¬ Stores (.ld 0 0) ∧ (0xFE01 ≠ 0xFE00 ∧ 0xFE01 ≠ 0xFE02)) ∧
      ∃ t, exec .trapHalt State.reset = .next t ∧ ¬ Stores .trapHalt ∧ ¬ ReadsMemory .trapHalt :=
  ⟨⟨_, rfl, id, by decide⟩, ⟨_, rfl, id, id⟩⟩
theorem witness_OnlyFourServicesWriteOutput :
    (∃ t, exec .trapHalt State.reset = .next t) ∧
      ∃ t, exec .trapIn State.reset = .next t ∧ State.reset.params.inPrompt = [] ∧
        State.reset.params.inEcho = false := ⟨⟨_, rfl⟩, ⟨_, rfl, rfl, rfl⟩⟩
theorem witness_InputStreamIsConserved : ∃ s t, step s = .next t :=
  ⟨fetching 0xF020 0x3000 #v[0, 0, 0, 0, 0, 0, 0, 0] .unset [] [0x41, 0x42], _, rfl⟩
theorem witness_ReliableHostNeverFails : ∃ s t, State.HostReliable s ∧ step s = .next t :=
  ⟨{ fetching 0xF021 0x3000 #v[0x41, 0, 0, 0, 0, 0, 0, 0] with inputDraws := [.notYet], outputDraws := [.accepts] },
    _, by decide, rfl⟩
/-- The last word that fits, and the three ranges that keep their cells. -/
theorem witness_ImageWordsFillConsecutiveCells :
    [((0x12 : Byte), (0x34 : Byte)), (0x56, 0x78)][0]? = some (0x12, 0x34) ∧ 0xFFFF + 0 ≤ 0xFFFF ∧
      0xFFFE < 0xFFFF ∧ 0xFFFF < 65536 := by decide
theorem witness_MalformedImagesAreRefused :
    ([] : List Byte).length < 2 ∧ [(0x30 : Byte), 0x00, 0x12].length % 2 = 1 ∧
      2 ≤ [(0x40 : Byte), 0x00].length ∧ [(0x40 : Byte), 0x00].length % 2 = 0 := by decide

end Sys2Proof.Machine.Tests
end

section
/-! PROOF. Sign extension (00_scope.md R12): one equation per value of the sign bit, and the signed value. -/

namespace Sys2Proof.Proofs

variable {n : Nat} {v : Word}

/-- R12 with the sign bit set: all bits from N up are set. -/
theorem sext_of_signBit (h : v.getLsbD (n - 1) = true) :
    sext n v = v ||| ~~~(BitVec.ofNat 16 (2 ^ n - 1)) := if_pos h

/-- R12 with the sign bit clear: only the low N bits are kept. -/
theorem sext_of_not_signBit (h : v.getLsbD (n - 1) = false) :
    sext n v = v &&& BitVec.ofNat 16 (2 ^ n - 1) := if_neg (Bool.eq_false_iff.mp h)

/-- The signed value of `sext_N`: its field is no wider than a word, so extension keeps it. -/
theorem toInt_sext (hn : n ∈ [5, 6, 9, 11]) (v : Word) : (sext n v).toInt = (v.setWidth n).toInt := by
  have n_le : n ≤ 16 := (by decide : ∀ m ∈ [5, 6, 9, 11], m ≤ 16) n hn
  rw [Laws.sext_eq_signExtend n hn, BitVec.toInt_signExtend_of_le n_le]

/-- Settles O3: the signed value through the standard sign extension, the two masks by the branches of `sext`. -/
theorem signExtensionReadsLowBitsAsSigned : Obligations.SignExtensionReadsLowBitsAsSigned :=
  fun _ hn v => ⟨toInt_sext hn v, sext_of_signBit, sext_of_not_signBit⟩

end Sys2Proof.Proofs
end

section
/-! PROOF. A halted machine is final (10_state.md R30): it takes no step, so its runs end where they begin. -/

namespace Sys2Proof.Proofs

open Sys2Proof.Machine Sys2Proof.Machine.Laws

variable {s t : State} {r : Reason}

/-- Only a running machine answers a next state (R128). -/
theorem step_ne_next_of_halted (halted : s.run = .halted r) (t : State) : step s ≠ .next t := by
  intro stepped
  obtain ⟨running, -⟩ := step_cases stepped
  exact nomatch halted.symm.trans running

/-- A run from a halted machine has no first step. -/
theorem eq_of_reaches_of_halted (halted : s.run = .halted r) (reached : Reaches s t) : t = s := by
  cases reached with
  | refl => rfl
  | step first _ => exact absurd first (step_ne_next_of_halted halted _)

/-- HALT saves its link and raises the reason Halt (R207). -/
theorem exec_trapHalt (s : State) : exec .trapHalt s = .next (raise .halt s.link) := rfl

/-- Settles O39: a step needs a running machine, and HALT's next state is a raised one. -/
theorem haltedIsFinal : Obligations.HaltedIsFinal :=
  fun _ _ halted =>
    ⟨step_ne_next_of_halted halted, fun _ => eq_of_reaches_of_halted halted,
      fun s => ⟨_, exec_trapHalt s, .halt, raise_run .halt s.link⟩⟩

end Sys2Proof.Proofs
end

section
/-! PROOF. MemRead (20_memory.md R53): one equation per branch of its pseudocode. The plain read is
`Laws.memRead_plain`. -/

namespace Sys2Proof.Proofs

open Sys2Proof.Machine Sys2Proof.Machine.Laws

/-- R17: `raise` ends a step with its reason and leaves everything but the run state. -/
theorem endedWith_raise (r : Reason) (s : State) : EndedWith r s (raise r s) :=
  ⟨raise_run r s, fun q => reg_raise q r s, raise_cond r s, raise_pc r s, fun k => cell_raise k r s, raise_hold r s,
    raise_params r s, ⟨raise_input r s, raise_inputDraws r s, raise_taken r s⟩, raise_output r s, raise_outputDraws r s⟩

/-- The bound check comes first, and reads nothing. -/
theorem memRead_outOfBounds {addr : Nat} (beyond : memWords ≤ addr) (s : State) :
    memRead addr s = .ended (raise (.outOfBoundsAccess addr) s) := if_pos beyond

/-- The keyboard status cell is within the bound, so its read is the poll, then the cell the poll left. -/
theorem memRead_kbsr_eq_poll (s : State) :
    memRead kbsrAddr s = (keyboardPoll s).andThen fun _ u => .ok (u.cell kbsrAddr) u := rfl

/-- A poll that goes on: the answer is the cell as the poll left it. -/
theorem memRead_kbsr_of_poll_ok {s u : State} (polled : keyboardPoll s = .ok () u) :
    memRead kbsrAddr s = .ok (u.cell kbsrAddr) u := by
  rw [memRead_kbsr_eq_poll, polled, andThen_ok]

/-- A poll that ends the step ends the read. -/
theorem memRead_kbsr_of_poll_ended {s u : State} (failed : keyboardPoll s = .ended u) :
    memRead kbsrAddr s = .ended u := by
  rw [memRead_kbsr_eq_poll, failed, andThen_ended]

/-- Settles O22: each clause is one branch of MemRead; at 0xFE00 the poll's answer decides how it ends. -/
theorem memReadChecksBoundThenPolls : Obligations.MemReadChecksBoundThenPolls := by
  refine fun addr s => ⟨fun beyond => ?_, memRead_plain addr s, ?_, ?_⟩
  · exact ⟨_, memRead_outOfBounds beyond s, endedWith_raise _ s⟩
  · rintro rfl u polled
    exact memRead_kbsr_of_poll_ok polled
  · rintro rfl u failed
    exact memRead_kbsr_of_poll_ended failed

end Sys2Proof.Proofs
end

section
/-! PROOF. The flags (40_cycle.md R126): `condOf` classifies every word as a signed number. -/

namespace Sys2Proof.Proofs

open Sys2Proof.Machine Sys2Proof.Machine.Laws

/-- The three signs of a word are the three classes. -/
theorem classifies_condOf (v : Word) : Classifies (condOf v) v := by
  rw [condOf_eq]
  rcases lt_trichotomy v.toInt 0 with negative | zero | positive
  · exact .inl ⟨negative, if_pos negative⟩
  · exact .inr (.inl ⟨zero, by simp [zero]⟩)
  · exact .inr (.inr ⟨positive, by rw [if_neg (by omega), if_neg (by omega)]⟩)

/-- Settles O8: the register reads as the word just written to it, and the flags are that word's class. -/
theorem flagsClassifySignedResult : Obligations.FlagsClassifySignedResult := by
  intro r v s
  have written : (writeResult r v s).reg r = v := reg_setReg_same r v s
  exact ⟨written.symm ▸ classifies_condOf v, written, condOf_ne_unset v⟩

end Sys2Proof.Proofs
end

section
/-! PROOF. The advanced pc (40_cycle.md R122): a completed fetch leaves pc one past the fetched address; what
runs after it keeps pc unless it transfers control, and links through R7 what it found in pc. -/

namespace Sys2Proof.Proofs

open Sys2Proof.Machine Sys2Proof.Machine.Laws

variable {s t u : State} {i : Instr} {w : Word} {addr : Nat}

/-! ### Keeping pc and the link register -/

/-- What the body of a trap service, run after the link, leaves unchanged (44_trap_system.md R209). -/
structure KeepsPcAndLink (s t : State) : Prop where
  pc : t.pc = s.pc
  link : t.reg linkReg = s.reg linkReg

theorem KeepsPcAndLink.trans (first : KeepsPcAndLink s t) (rest : KeepsPcAndLink t u) : KeepsPcAndLink s u :=
  ⟨rest.pc.trans first.pc, rest.link.trans first.link⟩

theorem keepsPcAndLink_of_consoleOnly (frame : ConsoleOnly s t) : KeepsPcAndLink s t :=
  ⟨frame.pc, by simp only [State.reg, frame.regs]⟩

/-- R0, which takes the byte, is not the link register. -/
theorem keepsPcAndLink_acceptByte (b : Byte) (s : State) : KeepsPcAndLink s (acceptByte b s) :=
  ⟨rfl, reg_setReg_ne linkReg 0 (zext16 b) s (by decide)⟩

/-- The read fails, takes its byte, or holds the step. -/
theorem keepsPcAndLink_consoleRead (service : HeldRead) (s : State) :
    KeepsPcAndLink s (left (consoleRead service s)) := by
  rcases consoleRead_cases service s with ⟨-, read⟩ | ⟨_, -, -, read⟩ | ⟨-, -, read⟩ <;> rw [read] <;>
    exact ⟨rfl, rfl⟩

theorem keepsPcAndLink_consoleWriteAll (bytes : List Byte) (s : State) :
    KeepsPcAndLink s (left (consoleWriteAll bytes s)) :=
  keepsPcAndLink_of_consoleOnly (writeOnly_consoleWriteAll bytes s).console

theorem keepsPcAndLink_consoleWrite (b : Byte) (s : State) : KeepsPcAndLink s (left (consoleWrite b s)) :=
  keepsPcAndLink_of_consoleOnly (writeOnly_consoleWrite b s).console

theorem keepsPcAndLink_getcRead (s : State) : KeepsPcAndLink s (left (getcRead s)) :=
  andThen_keeps (KeepsPcAndLink s) _ _ (keepsPcAndLink_consoleRead .getc s)
    fun b t _ kept => kept.trans (keepsPcAndLink_acceptByte b t)

/-- The read, the echo if there is one, then R0. -/
theorem keepsPcAndLink_inRead (s : State) : KeepsPcAndLink s (left (inRead s)) := by
  refine andThen_keeps (KeepsPcAndLink s) _ _ (keepsPcAndLink_consoleRead .inService s) fun b t _ kept => ?_
  refine andThen_keeps (KeepsPcAndLink s) _ _ ?_ fun _ u _ kept => kept.trans (keepsPcAndLink_acceptByte b u)
  split
  · exact kept.trans (keepsPcAndLink_consoleWrite b t)
  · exact kept

theorem keepsPcAndLink_writeStringAtR0 (bytes : Word → List Byte) (s : State) :
    KeepsPcAndLink s (left (writeStringAtR0 bytes s)) :=
  keepsPcAndLink_of_consoleOnly (consoleOnly_writeString bytes _ _ s)

/-! ### What an instruction does to pc and R7 -/

/-- After its link a service keeps pc and R7, however it ends. The cases are in the order of `trapServices`. -/
theorem exec_trapService (service : i ∈ trapServices) (s : State) :
    ∃ t, exec i s = .next t ∧ KeepsPcAndLink s.link t := by
  simp only [trapServices, List.mem_cons, List.not_mem_nil, or_false] at service
  rcases service with rfl | rfl | rfl | rfl | rfl | rfl
  · exact ⟨_, outcome_eq _, keepsPcAndLink_getcRead _⟩
  · exact ⟨_, outcome_eq _, keepsPcAndLink_consoleWrite _ _⟩
  · exact ⟨_, outcome_eq _, keepsPcAndLink_writeStringAtR0 putsBytes _⟩
  · exact ⟨_, outcome_eq _, andThen_keeps (KeepsPcAndLink s.link) _ _ (keepsPcAndLink_consoleWriteAll _ _)
      fun _ t _ kept => kept.trans (keepsPcAndLink_inRead t)⟩
  · exact ⟨_, outcome_eq _, keepsPcAndLink_writeStringAtR0 putspBytes _⟩
  · exact ⟨_, rfl, rfl, rfl⟩

theorem reg_link (s : State) : s.link.reg linkReg = s.pc := reg_setReg_same linkReg s.pc s

/-- Every linking instruction leaves in R7 the pc it started from. JSRR's two orders differ in the target only. -/
theorem exec_links_pc
    (links : (∃ offset, i = .jsr offset) ∨ (∃ baseR, i = .jsrr baseR) ∨ i ∈ trapServices) (s : State) :
    ∃ t, exec i s = .next t ∧ t.reg linkReg = s.pc := by
  rcases links with ⟨offset, rfl⟩ | ⟨baseR, rfl⟩ | service
  · exact ⟨_, rfl, reg_link s⟩
  · refine ⟨_, rfl, ?_⟩
    split <;> exact reg_link s
  · obtain ⟨t, ran, kept⟩ := exec_trapService service s
    exact ⟨t, ran, kept.link.trans (reg_link s)⟩

theorem pc_loadFrom (dr : Reg) (addr : Word) (s : State) : (left (loadFrom dr addr s)).pc = s.pc :=
  andThen_keeps (·.pc = s.pc) _ _ (readOnly_memRead _ s).pc fun _ _ _ kept => kept

theorem pc_storeTo (sr : Reg) (addr : Word) (s : State) : (left (storeTo sr addr s)).pc = s.pc := by
  simp only [storeTo, memWrite_word, left_ok, setCell_pc]

/-- The pointer read of LDI and STI keeps pc, so the indirect access keeps it when its second half does. -/
theorem pc_indirect_andThen {access : Word → State → Phase Unit}
    (access_pc : ∀ addr u, (left (access addr u)).pc = u.pc) (offset : Word) (s : State) :
    (left ((indirect offset s).andThen access)).pc = s.pc :=
  andThen_keeps (·.pc = s.pc) _ _ (readOnly_memRead _ s).pc
    fun addr u _ kept => (access_pc addr u).trans kept

/-- An instruction that transfers no control leaves pc as it found it. -/
theorem exec_keeps_pc (stays : ¬ TransfersControl i) (s : State) : ∃ t, exec i s = .next t ∧ t.pc = s.pc := by
  cases i with
  | br _ _ _ _ | ret | jmp _ | jsr _ | jsrr _ => exact absurd trivial stays
  | addReg _ _ _ | addImm _ _ _ | andReg _ _ _ | andImm _ _ _ | not _ _ | lea _ _ | rti | reserved | trapInvalid _ =>
    exact ⟨_, rfl, rfl⟩
  | ld _ _ | ldr _ _ _ => exact ⟨_, outcome_eq _, pc_loadFrom _ _ s⟩
  | ldi dr offset => exact ⟨_, outcome_eq _, pc_indirect_andThen (pc_loadFrom dr) offset s⟩
  | st _ _ | str _ _ _ => exact ⟨_, outcome_eq _, pc_storeTo _ _ s⟩
  | sti sr offset => exact ⟨_, outcome_eq _, pc_indirect_andThen (pc_storeTo sr) offset s⟩
  | trapGetc | trapOut | trapPuts | trapIn | trapPutsp | trapHalt =>
    refine (exec_trapService ?_ s).imp fun t ⟨ran, kept⟩ => ⟨ran, kept.pc⟩
    decide

/-- What holds of the state an instruction is known to answer holds of the state it did answer. -/
theorem of_exec_next {P : State → Prop} (ran : exec i s = .next t)
    (answers : ∃ t', exec i s = .next t' ∧ P t') : P t := by
  obtain ⟨t', ran', holds⟩ := answers
  cases ran.symm.trans ran'
  exact holds

/-! ### The completed fetch -/

theorem pc_of_memRead_ok (read : memRead addr s = .ok w u) : u.pc = s.pc := by
  simpa [read] using (readOnly_memRead addr s).pc

/-- R120: after a completed fetch the step is the decoded instruction, run from the advanced pc. -/
theorem step_eq_exec_of_fetched (fetching : s.Fetching) (read : memRead s.pc.toNat s = .ok w u) :
    step s = exec (decode w) (u.setPc (u.pc + 1)) := by
  obtain ⟨running, unheld⟩ := fetching
  simp [step, fetch, running, unheld, read]

theorem toNat_add_one (a : Word) : (a + 1).toNat = (a.toNat + 1) % 65536 := rfl

/-- Settles O37: the instruction runs from the fetched address plus one, and each clause says where that pc goes:
into a target, into R7, or nowhere. -/
theorem pcIsTheFetchedAddressPlusOne : Obligations.PcIsTheFetchedAddressPlusOne := by
  intro s t u w fetching read stepped
  have runs := step_eq_exec_of_fetched fetching read
  have ran := runs.symm.trans stepped
  have advanced : (u.setPc (u.pc + 1)).pc = s.pc + 1 := by rw [setPc_pc, pc_of_memRead_ok read]
  refine ⟨⟨_, rfl, runs, by rw [advanced, toNat_add_one], fun offset => ?_⟩, fun links => ?_, fun stays => ?_⟩
  · rw [pcRelative, advanced, BitVec.toNat_add, toNat_add_one, Nat.mod_add_mod]
  · have linked : t.reg linkReg = _ := of_exec_next ran (exec_links_pc links _)
    change (t.reg linkReg).toNat = _
    rw [linked, advanced, toNat_add_one]
  · have kept : t.pc = _ := of_exec_next ran (exec_keeps_pc stays _)
    rw [kept, advanced, toNat_add_one]

end Sys2Proof.Proofs
end

section
/-! PROOF. ADD, AND and NOT (41_alu.md): each ends in `writeResult`, whose effect and frame are stated once; what
is left of each instruction is the value of its result. -/

namespace Sys2Proof.Proofs

open Sys2Proof.Machine Sys2Proof.Machine.Laws

/-! ### The end of a flag-setting instruction -/

/-- The written register holds the result and the flags are its class (R126); the frame is all the rest. -/
theorem resultIn_writeResult (dr : Reg) (v : Word) (s : State) : ResultIn dr v s (writeResult dr v s) :=
  ⟨reg_setReg_same dr v s, classifies_condOf v, fun q other => reg_setReg_ne q dr v s other, rfl,
    fun _ => rfl, ⟨rfl, rfl, rfl⟩, ⟨rfl, rfl, rfl⟩, ⟨rfl, rfl⟩⟩

/-! ### What each instruction writes -/

section
variable (dr sr1 sr2 : Reg) (imm : Word) (s : State)

theorem exec_addReg : exec (.addReg dr sr1 sr2) s = .next (writeResult dr (s.reg sr1 + s.reg sr2) s) := rfl

theorem exec_addImm : exec (.addImm dr sr1 imm) s = .next (writeResult dr (s.reg sr1 + imm) s) := rfl

theorem exec_andReg : exec (.andReg dr sr1 sr2) s = .next (writeResult dr (s.reg sr1 &&& s.reg sr2) s) := rfl

theorem exec_andImm : exec (.andImm dr sr1 imm) s = .next (writeResult dr (s.reg sr1 &&& imm) s) := rfl

theorem exec_not : exec (.not dr sr1) s = .next (writeResult dr (~~~ s.reg sr1) s) := rfl

end

/-! ### The statements -/

/-- Settles O9: both forms write the sum of two words, which wraps at 65536. -/
theorem addGivesSumModulo65536 : Obligations.AddGivesSumModulo65536 := fun dr sr1 s =>
  ⟨fun sr2 => ⟨_, _, exec_addReg dr sr1 sr2 s, resultIn_writeResult dr _ s, BitVec.toNat_add _ _⟩,
    fun imm => ⟨_, _, exec_addImm dr sr1 imm s, resultIn_writeResult dr _ s, BitVec.toNat_add _ _⟩⟩

/-- Settles O10: both forms write the conjunction of two words, which is taken bit by bit. -/
theorem andGivesBitwiseConjunction : Obligations.AndGivesBitwiseConjunction := fun dr sr1 s =>
  ⟨fun sr2 => ⟨_, _, exec_andReg dr sr1 sr2 s, resultIn_writeResult dr _ s, fun _ => BitVec.getLsbD_and⟩,
    fun imm => ⟨_, _, exec_andImm dr sr1 imm s, resultIn_writeResult dr _ s, fun _ => BitVec.getLsbD_and⟩⟩

/-- Settles O11: NOT writes the complement of a word, which is 65535 less its value. -/
theorem notGivesComplement : Obligations.NotGivesComplement := fun dr sr s =>
  ⟨_, _, exec_not dr sr s, resultIn_writeResult dr _ s, BitVec.toNat_not⟩

end Sys2Proof.Proofs
end

section
/-! PROOF. Control transfer (42_control.md): every transfer ends in `setPc`, whose frame is stated once; JSR
links before it. What is left of each instruction is its target. -/

namespace Sys2Proof.Proofs

open Sys2Proof.Machine Sys2Proof.Machine.Laws

/-! ### What a transfer leaves unchanged -/

section
variable (a : Word) (s : State)

theorem frame_setPc : SameRegs s (s.setPc a) ∧ (s.setPc a).cond = s.cond ∧ SameCells s (s.setPc a) ∧
    SameControl s (s.setPc a) ∧ SameInput s (s.setPc a) ∧ SameOutput s (s.setPc a) :=
  ⟨fun q => reg_setPc q a s, setPc_cond a s, fun k => cell_setPc k a s, ⟨rfl, rfl, rfl⟩, ⟨rfl, rfl, rfl⟩, ⟨rfl, rfl⟩⟩

/-- A transfer after the link changes R7 besides. -/
theorem frame_link_setPc : SameRegsBut linkReg s (s.link.setPc a) ∧ (s.link.setPc a).cond = s.cond ∧
    SameCells s (s.link.setPc a) ∧ SameControl s (s.link.setPc a) ∧ SameInput s (s.link.setPc a) ∧
    SameOutput s (s.link.setPc a) :=
  ⟨fun q other => reg_setReg_ne q linkReg s.pc s other, setReg_cond linkReg s.pc s,
    fun k => cell_setReg k linkReg s.pc s, ⟨rfl, rfl, rfl⟩, ⟨rfl, rfl, rfl⟩, ⟨rfl, rfl⟩⟩

end

/-! ### Where each instruction goes -/

section
variable (n z p : Bool) (baseR : Reg) (offset : Word) (s : State)

/-- R160: the three bits meet the condition one by one. -/
theorem branchTaken_iff (c : Cond) : branchTaken n z p c = true ↔
    (n = true ∧ c = .negative) ∨ (z = true ∧ c = .zero) ∨ (p = true ∧ c = .positive) := by
  simp [branchTaken, or_assoc]

/-- An untaken BR is the transfer to where pc already is. -/
theorem exec_br : exec (.br n z p offset) s =
    .next (s.setPc (if branchTaken n z p s.cond then pcRelative offset s else s.pc)) :=
  congrArg Host.Outcome.next (apply_ite s.setPc _ _ _).symm

theorem exec_jmp : exec (.jmp baseR) s = .next (s.setPc (s.reg baseR)) := rfl

theorem exec_ret : exec .ret s = .next (s.setPc (s.reg linkReg)) := rfl

theorem exec_jsr : exec (.jsr offset) s = .next (s.link.setPc (pcRelative offset s)) := rfl

/-- R187: the PC-relative address wraps. -/
theorem toNat_pcRelative : (pcRelative offset s).toNat = (s.pc.toNat + offset.toNat) % 65536 :=
  BitVec.toNat_add s.pc offset

end

/-! ### The statements -/

/-- Settles O13: BR only sets pc, to the target when its bits meet the condition and to itself otherwise. -/
theorem branchTakenIffBitsMeetCondition : Obligations.BranchTakenIffBitsMeetCondition := by
  intro n z p offset s taken
  have met_iff : branchTaken n z p s.cond = true ↔ taken := branchTaken_iff n z p s.cond
  refine ⟨_, exec_br n z p offset s, fun met => ?_, fun unmet => ?_, frame_setPc _ s⟩
  · rw [setPc_pc, if_pos (met_iff.mpr met), toNat_pcRelative]
  · rw [setPc_pc, if_neg (mt met_iff.mp unmet)]

/-- Settles O15: JMP and RET set pc from a register; JSR takes its link and its target from the same advanced pc. -/
theorem jumpsLoadPcAndJsrLinks : Obligations.JumpsLoadPcAndJsrLinks := fun s =>
  ⟨fun baseR => ⟨_, exec_jmp baseR s, setPc_pc _ s, frame_setPc _ s⟩,
    ⟨_, exec_ret s, setPc_pc _ s, frame_setPc _ s⟩,
    fun offset => ⟨_, exec_jsr offset s, reg_link s, toNat_pcRelative offset s, frame_link_setPc _ s⟩⟩

end Sys2Proof.Proofs
end

section
/-! PROOF. LEA (43_load_store.md): it ends in `writeResult` as the ALU instructions do, on the state it started
from, so no memory is read and no poll can happen; its result is the PC-relative address. -/

namespace Sys2Proof.Proofs

open Sys2Proof.Machine

theorem exec_lea (dr : Reg) (offset : Word) (s : State) :
    exec (.lea dr offset) s = .next (writeResult dr (pcRelative offset s) s) := rfl

/-- Settles O19: LEA is a writeResult of the PC-relative address, which wraps. -/
theorem leaGivesTheAddressItself : Obligations.LeaGivesTheAddressItself := fun dr offset s =>
  ⟨_, _, exec_lea dr offset s, resultIn_writeResult dr _ s, toNat_pcRelative offset s⟩

end Sys2Proof.Proofs
end

section
/-! PROOF. HALT, RTI and RESERVED (44_trap_system.md): HALT raises after the link, RESERVED raises on the state it
starts from, RTI answers that state. For a step on a RESERVED word, the fetch is plain, the opcode alone decides what
the word decodes to, and the recorded word is the fetched one. -/

namespace Sys2Proof.Proofs

open Sys2Proof.Machine Sys2Proof.Machine.Laws

/-! ### What the instructions answer -/

theorem exec_rti (s : State) : exec .rti s = .next s := rfl

theorem exec_reserved (s : State) : exec .reserved s = .next (raise (.illegalInstruction (fetchedWord s)) s) := rfl

/-! ### Decoding a RESERVED word -/

/-- R81: the first four bits of a word are its opcode. -/
theorem opcodeField_word (opcode : BitVec 4) (low : BitVec 12) : opcodeField (word (opcode ++ low)) = opcode := by
  rw [opcodeField, Sys2Proof.Laws.extract_word, BitVec.extractLsb'_append_eq_left]

/-- R93: a word of opcode 1101 is RESERVED whatever its low bits. -/
theorem decode_opcode_reserved (low : BitVec 12) : decode (word (0b1101#4 ++ low)) = .reserved := by
  simp [decode, decodeWord, opcodeField_word]

/-! ### The step on a RESERVED word -/

/-- A fetch away from the keyboard status cell reads the cell at pc and changes nothing. -/
theorem memRead_pc_plain {s : State} (plain : s.pc.toNat ≠ kbsrAddr) :
    memRead s.pc.toNat s = .ok (s.cell s.pc.toNat) s :=
  memRead_plain _ s s.pc.isLt plain

/-- A fetched word that decodes to RESERVED is the word the reason records. -/
theorem step_of_fetched_reserved {s u : State} {w : Word} (fetching : s.Fetching)
    (read : memRead s.pc.toNat s = .ok w u) (reserved : decode w = .reserved) :
    step s = .next (raise (.illegalInstruction w) (u.setPc (u.pc + 1))) := by
  rw [step_eq_exec_of_fetched fetching read, reserved, exec_reserved, fetchedWord_after_fetch read]

/-! ### The statements -/

/-- Settles O32: a raise changes the run state alone, so HALT's frame is that of its link. -/
theorem haltStopsTheMachine : Obligations.HaltStopsTheMachine := by
  intro s
  obtain ⟨halted, regs, cond, pc, cells, hold, params, input, -⟩ := endedWith_raise .halt s.link
  have linked : (raise .halt s.link).reg linkReg = s.pc := (regs linkReg).trans (reg_link s)
  have others : SameRegsBut linkReg s (raise .halt s.link) :=
    fun q other => (regs q).trans (reg_setReg_ne q linkReg s.pc s other)
  exact ⟨_, exec_trapHalt s, halted, linked, others, cond, pc, cells, hold, params, input⟩

/-- Settles O33: RTI's arm answers the state it is given. -/
theorem rtiHasNoEffect : Obligations.RtiHasNoEffect := exec_rti

/-- Settles O34: RESERVED is a raise, which keeps everything else; in a step it is raised from the advanced pc. -/
theorem reservedRaisesIllegalInstruction : Obligations.ReservedRaisesIllegalInstruction := by
  refine ⟨fun s => ⟨_, _, exec_reserved s, endedWith_raise _ s⟩, fun s low fetching plain holds => ?_⟩
  have read : memRead s.pc.toNat s = .ok (word (0b1101#4 ++ low)) s := holds ▸ memRead_pc_plain plain
  exact ⟨_, step_of_fetched_reserved fetching read (decode_opcode_reserved low), endedWith_raise _ _⟩

end Sys2Proof.Proofs
end

section
/-! PROOF. The decoder (30_encoding.md R80 to R101). Three layers: what a word of each opcode decodes to, by the
word's fields; the fields of a word laid out as each format says; and from these the formats. -/

namespace Sys2Proof.Proofs

/-! ### What each opcode decodes to -/

section
variable {w : Word}

theorem decode_br (op : opcodeField w = 0b0000) :
    decode w = .br (w.getLsbD 11) (w.getLsbD 10) (w.getLsbD 9) (sext 9 w) := by
  simp [decode, decodeWord, op]

theorem decode_addImm (op : opcodeField w = 0b0001) (tag : w.getLsbD 5 = true) :
    decode w = .addImm (drField w) (baseField w) (sext 5 w) := by
  simp only [decode, decodeWord, op, tag]; rfl

theorem decode_addReg (op : opcodeField w = 0b0001) (tag : w.getLsbD 5 = false) :
    decode w = .addReg (drField w) (baseField w) (sr2Field w) := by
  simp only [decode, decodeWord, op, tag]; rfl

theorem decode_ld (op : opcodeField w = 0b0010) : decode w = .ld (drField w) (sext 9 w) := by
  simp [decode, decodeWord, op]

theorem decode_st (op : opcodeField w = 0b0011) : decode w = .st (drField w) (sext 9 w) := by
  simp [decode, decodeWord, op]

theorem decode_jsr (op : opcodeField w = 0b0100) (tag : w.getLsbD 11 = true) : decode w = .jsr (sext 11 w) := by
  simp only [decode, decodeWord, op, tag]; rfl

theorem decode_jsrr (op : opcodeField w = 0b0100) (tag : w.getLsbD 11 = false) : decode w = .jsrr (baseField w) := by
  simp only [decode, decodeWord, op, tag]; rfl

theorem decode_andImm (op : opcodeField w = 0b0101) (tag : w.getLsbD 5 = true) :
    decode w = .andImm (drField w) (baseField w) (sext 5 w) := by
  simp only [decode, decodeWord, op, tag]; rfl

theorem decode_andReg (op : opcodeField w = 0b0101) (tag : w.getLsbD 5 = false) :
    decode w = .andReg (drField w) (baseField w) (sr2Field w) := by
  simp only [decode, decodeWord, op, tag]; rfl

theorem decode_ldr (op : opcodeField w = 0b0110) : decode w = .ldr (drField w) (baseField w) (sext 6 w) := by
  simp [decode, decodeWord, op]

theorem decode_str (op : opcodeField w = 0b0111) : decode w = .str (drField w) (baseField w) (sext 6 w) := by
  simp [decode, decodeWord, op]

theorem decodeWord_rti (op : opcodeField w = 0b1000) : decodeWord w = .ok .rti := by
  simp [decodeWord, op]

theorem decode_not (op : opcodeField w = 0b1001) : decode w = .not (drField w) (baseField w) := by
  simp [decode, decodeWord, op]

theorem decode_ldi (op : opcodeField w = 0b1010) : decode w = .ldi (drField w) (sext 9 w) := by
  simp [decode, decodeWord, op]

theorem decode_sti (op : opcodeField w = 0b1011) : decode w = .sti (drField w) (sext 9 w) := by
  simp [decode, decodeWord, op]

theorem decode_ret (op : opcodeField w = 0b1100) (base : baseField w = 7) : decode w = .ret := by
  simp [decode, decodeWord, op, base]

theorem decode_jmp (op : opcodeField w = 0b1100) (base : baseField w ≠ 7) : decode w = .jmp (baseField w) := by
  simp [decode, decodeWord, op, base]

theorem decodeWord_reserved (op : opcodeField w = 0b1101) : decodeWord w = .ok .reserved := by
  simp [decodeWord, op]

theorem decode_lea (op : opcodeField w = 0b1110) : decode w = .lea (drField w) (sext 9 w) := by
  simp [decode, decodeWord, op]

theorem decodeWord_trap (op : opcodeField w = 0b1111) : decodeWord w = decodeTrap (trapField w) := by
  simp [decodeWord, op]

/-! ### The verdict on a word, and the instruction it is carried as -/

theorem decode_of_ok {i : Instr} (verdict : decodeWord w = .ok i) : decode w = i := by
  simp [decode, verdict]

theorem decode_of_error (verdict : decodeWord w = .error .decodeFailure) :
    decode w = .trapInvalid (trapField w) := by
  simp [decode, verdict]

/-- R95, R99: a code that names no service is a decode error. -/
theorem decodeTrap_of_not_service {code : Byte} (none : ¬ IsService code) :
    decodeTrap code = .error .decodeFailure := by
  unfold decodeTrap
  split
  case h_7 => rfl
  all_goals exact absurd ⟨by omega, by omega⟩ none

end

/-! ### The fields of each format -/

theorem regOf_injective : Function.Injective regOf := Function.LeftInverse.injective Laws.regBits_regOf

section
open Sys2Proof.Laws

variable (op : BitVec 4) (a b c : BitVec 3) (x2 : BitVec 2) (t6 : BitVec 6) (i5 : BitVec 5) (o9 : BitVec 9)
  (o11 : BitVec 11) (n z p : Bool)

@[simp] theorem getElem_word {m : Nat} (f : BitVec m) (h : m = 16) (k : Nat) (hk : k < 16) :
    (word f h)[k] = f.getLsbD k := getLsbD_word f h k

/-- A field that ends a format is sign-extended whole (R101). -/
theorem sext_word_append {m n : Nat} (hn : n ∈ [5, 6, 9, 11]) (high : BitVec m) (low : BitVec n) (h : m + n = 16) :
    sext n (word (high ++ low) h) = low.signExtend 16 := by
  have n_le : n ≤ 16 := by omega
  rw [sext_eq_signExtend n hn, BitVec.setWidth_eq_extractLsb' n_le, extract_word, BitVec.extractLsb'_append_eq_right]

/-- ADD and AND, register form (R83). -/
theorem fields_register : let w := word (op ++ a ++ b ++ 0#1 ++ x2 ++ c)
    opcodeField w = op ∧ w.getLsbD 5 = false ∧ drField w = regOf a ∧ baseField w = regOf b ∧
      sr2Field w = regOf c := by
  simp (disch := omega) [-Nat.reduceAdd, opcodeField, drField, baseField, sr2Field, BitVec.getElem_append,
    BitVec.extractLsb'_append_eq_of_le, BitVec.extractLsb'_append_eq_of_add_le]

/-- ADD and AND, immediate form (R84). -/
theorem fields_immediate : let w := word (op ++ a ++ b ++ 1#1 ++ i5)
    opcodeField w = op ∧ w.getLsbD 5 = true ∧ drField w = regOf a ∧ baseField w = regOf b ∧
      sext 5 w = i5.signExtend 16 := by
  simp (disch := omega) [-Nat.reduceAdd, opcodeField, drField, baseField, BitVec.getElem_append,
    BitVec.extractLsb'_append_eq_of_le, BitVec.extractLsb'_append_eq_of_add_le, sext_word_append (n := 5) (by decide)]

/-- NOT, JMP and RET, LDR and STR: two registers and six more bits (R85, R87, R91). -/
theorem fields_base : let w := word (op ++ a ++ b ++ t6)
    opcodeField w = op ∧ drField w = regOf a ∧ baseField w = regOf b ∧ sext 6 w = t6.signExtend 16 := by
  simp (disch := omega) [-Nat.reduceAdd, opcodeField, drField, baseField,
    BitVec.extractLsb'_append_eq_of_le, BitVec.extractLsb'_append_eq_of_add_le, sext_word_append (n := 6) (by decide)]

/-- LD, LDI, LEA, ST and STI: a register and a PC-relative offset (R90). -/
theorem fields_offset : let w := word (op ++ a ++ o9)
    opcodeField w = op ∧ drField w = regOf a ∧ sext 9 w = o9.signExtend 16 := by
  simp (disch := omega) [-Nat.reduceAdd, opcodeField, drField,
    BitVec.extractLsb'_append_eq_of_le, BitVec.extractLsb'_append_eq_of_add_le, sext_word_append (n := 9) (by decide)]

/-- BR: three condition bits and an offset (R86). -/
theorem fields_branch : let w := word (op ++ BitVec.ofBool n ++ BitVec.ofBool z ++ BitVec.ofBool p ++ o9)
    opcodeField w = op ∧ w.getLsbD 11 = n ∧ w.getLsbD 10 = z ∧ w.getLsbD 9 = p ∧ sext 9 w = o9.signExtend 16 := by
  simp (disch := omega) [-Nat.reduceAdd, opcodeField, BitVec.getElem_append,
    BitVec.extractLsb'_append_eq_of_le, sext_word_append (n := 9) (by decide)]

/-- JSR (R88). -/
theorem fields_jsr : let w := word (op ++ 1#1 ++ o11)
    opcodeField w = op ∧ w.getLsbD 11 = true ∧ sext 11 w = o11.signExtend 16 := by
  simp (disch := omega) [-Nat.reduceAdd, opcodeField, BitVec.getElem_append,
    BitVec.extractLsb'_append_eq_of_le, sext_word_append (n := 11) (by decide)]

/-- JSRR (R89). -/
theorem fields_jsrr : let w := word (op ++ 0#1 ++ x2 ++ b ++ t6)
    opcodeField w = op ∧ w.getLsbD 11 = false ∧ baseField w = regOf b := by
  simp (disch := omega) [-Nat.reduceAdd, opcodeField, baseField, BitVec.getElem_append,
    BitVec.extractLsb'_append_eq_of_le, BitVec.extractLsb'_append_eq_of_add_le]

/-- TRAP (R94). -/
theorem fields_trap (x4 : BitVec 4) (code : BitVec 8) : let w := word (op ++ x4 ++ code)
    opcodeField w = op ∧ trapField w = code := by
  simp (disch := omega) [-Nat.reduceAdd, opcodeField, trapField, BitVec.extractLsb'_append_eq_of_le,
    BitVec.extractLsb'_append_eq_of_add_le]

end

/-! ### What each format decodes to -/

section
variable (a b c : BitVec 3) (x2 : BitVec 2) (x3 : BitVec 3) (x6 : BitVec 6) (i5 : BitVec 5) (o9 : BitVec 9)
  (o6 : BitVec 6) (o11 : BitVec 11) (n z p : Bool)

theorem format_addReg :
    decode (word (0b0001#4 ++ a ++ b ++ 0#1 ++ x2 ++ c)) = .addReg (regOf a) (regOf b) (regOf c) := by
  obtain ⟨op, tag, dr, sr1, sr2⟩ := fields_register 0b0001#4 a b c x2
  rw [decode_addReg op tag, dr, sr1, sr2]

theorem format_addImm :
    decode (word (0b0001#4 ++ a ++ b ++ 1#1 ++ i5)) = .addImm (regOf a) (regOf b) (i5.signExtend 16) := by
  obtain ⟨op, tag, dr, sr1, imm⟩ := fields_immediate 0b0001#4 a b i5
  rw [decode_addImm op tag, dr, sr1, imm]

theorem format_andReg :
    decode (word (0b0101#4 ++ a ++ b ++ 0#1 ++ x2 ++ c)) = .andReg (regOf a) (regOf b) (regOf c) := by
  obtain ⟨op, tag, dr, sr1, sr2⟩ := fields_register 0b0101#4 a b c x2
  rw [decode_andReg op tag, dr, sr1, sr2]

theorem format_andImm :
    decode (word (0b0101#4 ++ a ++ b ++ 1#1 ++ i5)) = .andImm (regOf a) (regOf b) (i5.signExtend 16) := by
  obtain ⟨op, tag, dr, sr1, imm⟩ := fields_immediate 0b0101#4 a b i5
  rw [decode_andImm op tag, dr, sr1, imm]

theorem format_not : decode (word (0b1001#4 ++ a ++ b ++ x6)) = .not (regOf a) (regOf b) := by
  obtain ⟨op, dr, sr, -⟩ := fields_base 0b1001#4 a b x6
  rw [decode_not op, dr, sr]

theorem format_br : decode (word (0b0000#4 ++ BitVec.ofBool n ++ BitVec.ofBool z ++ BitVec.ofBool p ++ o9)) =
    .br n z p (o9.signExtend 16) := by
  obtain ⟨op, bit11, bit10, bit9, off⟩ := fields_branch 0b0000#4 o9 n z p
  rw [decode_br op, bit11, bit10, bit9, off]

theorem format_jmp (not_r7 : b ≠ 7) : decode (word (0b1100#4 ++ x3 ++ b ++ x6)) = .jmp (regOf b) := by
  obtain ⟨op, -, base, -⟩ := fields_base 0b1100#4 x3 b x6
  rw [decode_jmp op (base ▸ regOf_injective.ne not_r7), base]

theorem format_ret : decode (word (0b1100#4 ++ x3 ++ 0b111#3 ++ x6)) = .ret := by
  obtain ⟨op, -, base, -⟩ := fields_base 0b1100#4 x3 0b111#3 x6
  exact decode_ret op base

theorem format_jsr : decode (word (0b0100#4 ++ 1#1 ++ o11)) = .jsr (o11.signExtend 16) := by
  obtain ⟨op, tag, off⟩ := fields_jsr 0b0100#4 o11
  rw [decode_jsr op tag, off]

theorem format_jsrr : decode (word (0b0100#4 ++ 0#1 ++ x2 ++ b ++ x6)) = .jsrr (regOf b) := by
  obtain ⟨op, tag, base⟩ := fields_jsrr 0b0100#4 b x2 x6
  rw [decode_jsrr op tag, base]

theorem format_ld : decode (word (0b0010#4 ++ a ++ o9)) = .ld (regOf a) (o9.signExtend 16) := by
  obtain ⟨op, dr, off⟩ := fields_offset 0b0010#4 a o9
  rw [decode_ld op, dr, off]

theorem format_ldi : decode (word (0b1010#4 ++ a ++ o9)) = .ldi (regOf a) (o9.signExtend 16) := by
  obtain ⟨op, dr, off⟩ := fields_offset 0b1010#4 a o9
  rw [decode_ldi op, dr, off]

theorem format_lea : decode (word (0b1110#4 ++ a ++ o9)) = .lea (regOf a) (o9.signExtend 16) := by
  obtain ⟨op, dr, off⟩ := fields_offset 0b1110#4 a o9
  rw [decode_lea op, dr, off]

theorem format_st : decode (word (0b0011#4 ++ a ++ o9)) = .st (regOf a) (o9.signExtend 16) := by
  obtain ⟨op, sr, off⟩ := fields_offset 0b0011#4 a o9
  rw [decode_st op, sr, off]

theorem format_sti : decode (word (0b1011#4 ++ a ++ o9)) = .sti (regOf a) (o9.signExtend 16) := by
  obtain ⟨op, sr, off⟩ := fields_offset 0b1011#4 a o9
  rw [decode_sti op, sr, off]

theorem format_ldr : decode (word (0b0110#4 ++ a ++ b ++ o6)) = .ldr (regOf a) (regOf b) (o6.signExtend 16) := by
  obtain ⟨op, dr, base, off⟩ := fields_base 0b0110#4 a b o6
  rw [decode_ldr op, dr, base, off]

theorem format_str : decode (word (0b0111#4 ++ a ++ b ++ o6)) = .str (regOf a) (regOf b) (o6.signExtend 16) := by
  obtain ⟨op, sr, base, off⟩ := fields_base 0b0111#4 a b o6
  rw [decode_str op, sr, base, off]

/-- R94, R99: a TRAP word whose code names no service. -/
theorem format_trapInvalid {code : Byte} (none : ¬ IsService code) (x4 : BitVec 4) :
    decode (word (0b1111#4 ++ x4 ++ code)) = .trapInvalid code := by
  obtain ⟨op, trap⟩ := fields_trap 0b1111#4 x4 code
  have verdict := decodeWord_trap op
  rw [trap, decodeTrap_of_not_service none] at verdict
  rw [decode_of_error verdict, trap]

end

/-- Settles O6: each format's fields are read back, and its opcode says what they are the operands of. -/
theorem formatsPlaceEachField : Obligations.FormatsPlaceEachField :=
  fun a b c x2 x3 x6 i5 o9 o6 o11 n z p =>
    ⟨format_addReg a b c x2, format_addImm a b i5, format_andReg a b c x2, format_andImm a b i5, format_not a b x6,
      format_br o9 n z p, format_jmp b x3 x6, format_ret x3 x6, format_jsr o11, format_jsrr b x2 x6, format_ld a o9,
      format_ldi a o9, format_lea a o9, format_st a o9, format_sti a o9, format_ldr a b o6, format_str a b o6⟩

/-- Settles O5: the low bits are no part of the opcode. -/
theorem opcodesOfRtiAndReserved : Obligations.OpcodesOfRtiAndReserved := fun low =>
  ⟨decodeWord_rti (opcodeField_word _ low), decodeWord_reserved (opcodeField_word _ low)⟩

/-- Settles O4: opcode 1111 hands the word's code to the services. -/
theorem trapCodesNameSixServices : Obligations.TrapCodesNameSixServices := by
  intro w trap
  have verdict : decodeWord w = decodeTrap (w.extractLsb' 0 8) := decodeWord_trap trap
  have service {code : Byte} {i : Instr} (named : decodeTrap code = .ok i) (is : w.extractLsb' 0 8 = code) :
      decodeWord w = .ok i := by rw [verdict, is, named]
  refine ⟨service rfl, service rfl, service rfl, service rfl, service rfl, service rfl, fun outside => ?_⟩
  rw [verdict, decodeTrap_of_not_service]
  omega

/-- Settles O7: eight closed words. -/
theorem sampleWordsDecode : Obligations.SampleWordsDecode :=
  ⟨rfl, rfl, rfl, rfl, rfl, rfl, rfl, rfl⟩

end Sys2Proof.Proofs
end

section
/-! PROOF. The decoder and the encoder agree: decoding gives an encoded instruction back, and encoding gives back
the bits of a word that its format uses. -/

namespace Sys2Proof.Proofs

open Sys2Proof.Laws Sys2Proof.Machine

/-! ### Decode after encode -/

/-- R101: a value in the range of its field is encoded whole. -/
theorem signExtend_field {n : Nat} (hn : n ∈ [5, 6, 9, 11]) {v : Word} (fits : decide (FitsSigned n v) = true) :
    (v.extractLsb' 0 n).signExtend 16 = v := by
  have n_le : n ≤ 16 := (by decide : ∀ m ∈ [5, 6, 9, 11], m ≤ 16) n hn
  rw [← BitVec.setWidth_eq_extractLsb' n_le, signExtend_of_fits n hn v (of_decide_eq_true fits)]

theorem regBits_injective : Function.Injective regBits := Function.LeftInverse.injective regOf_regBits

/-- The three zero bits of an encoding are a format's tag bit and its two ignored bits. -/
theorem append_zero_tag {m : Nat} (high : BitVec m) : high ++ 0b000#3 = high ++ 0#1 ++ 0#2 := by
  apply BitVec.eq_of_toNat_eq
  simp [BitVec.toNat_append, ← Nat.shiftLeft_add]

theorem encode_addReg (dr sr1 sr2 : Reg) : encode (.addReg dr sr1 sr2) =
    word (0b0001#4 ++ regBits dr ++ regBits sr1 ++ 0#1 ++ 0#2 ++ regBits sr2) := by
  rw [← append_zero_tag]; rfl

theorem encode_andReg (dr sr1 sr2 : Reg) : encode (.andReg dr sr1 sr2) =
    word (0b0101#4 ++ regBits dr ++ regBits sr1 ++ 0#1 ++ 0#2 ++ regBits sr2) := by
  rw [← append_zero_tag]; rfl

theorem encode_jsrr (baseR : Reg) : encode (.jsrr baseR) =
    word (0b0100#4 ++ 0#1 ++ 0#2 ++ regBits baseR ++ 0#6) := by
  rw [← append_zero_tag]; rfl

/-- Settles O1: an encoding is a word of its instruction's format with the ignored bits zero, and a value in the
range of its field is the sign extension of that field. -/
theorem decodeOfEncodeIsTheInstruction : Obligations.DecodeOfEncodeIsTheInstruction := by
  intro i wf
  have whole5 {v : Word} := signExtend_field (n := 5) (by decide) (v := v)
  have whole6 {v : Word} := signExtend_field (n := 6) (by decide) (v := v)
  have whole9 {v : Word} := signExtend_field (n := 9) (by decide) (v := v)
  have whole11 {v : Word} := signExtend_field (n := 11) (by decide) (v := v)
  cases i with
  | addReg _ _ _ => rw [encode_addReg, format_addReg, regOf_regBits, regOf_regBits, regOf_regBits]
  | andReg _ _ _ => rw [encode_andReg, format_andReg, regOf_regBits, regOf_regBits, regOf_regBits]
  | addImm _ _ _ => rw [encode, format_addImm, regOf_regBits, regOf_regBits, whole5 wf]
  | andImm _ _ _ => rw [encode, format_andImm, regOf_regBits, regOf_regBits, whole5 wf]
  | not _ _ => rw [encode, format_not, regOf_regBits, regOf_regBits]
  | br _ _ _ _ => rw [encode, boolBit, boolBit, boolBit, format_br, whole9 wf]
  | ret => exact format_ret _ _
  | jmp baseR =>
    have not_r7 : regBits baseR ≠ 7 := regBits_injective.ne (of_decide_eq_true wf)
    rw [encode, format_jmp _ _ _ not_r7, regOf_regBits]
  | jsr _ => rw [encode, format_jsr, whole11 wf]
  | jsrr _ => rw [encode_jsrr, format_jsrr, regOf_regBits]
  | ld _ _ => rw [encode, format_ld, regOf_regBits, whole9 wf]
  | ldi _ _ => rw [encode, format_ldi, regOf_regBits, whole9 wf]
  | lea _ _ => rw [encode, format_lea, regOf_regBits, whole9 wf]
  | st _ _ => rw [encode, format_st, regOf_regBits, whole9 wf]
  | sti _ _ => rw [encode, format_sti, regOf_regBits, whole9 wf]
  | ldr _ _ _ => rw [encode, format_ldr, regOf_regBits, regOf_regBits, whole6 wf]
  | str _ _ _ => rw [encode, format_str, regOf_regBits, regOf_regBits, whole6 wf]
  | rti | reserved | trapGetc | trapOut | trapPuts | trapIn | trapPutsp | trapHalt => rfl
  | trapInvalid _ => exact format_trapInvalid (of_decide_eq_true wf) _

/-! ### Encode after decode -/

section
variable {n : Nat} (w : Word)

/-- Every sign extension is in the range of its field. -/
theorem fitsSigned_sext (hn : n ∈ [5, 6, 9, 11]) : FitsSigned n (sext n w) := by
  rw [FitsSigned, toInt_sext hn]
  exact ⟨BitVec.le_toInt _, BitVec.toInt_lt⟩

/-- Sign extension keeps its field. -/
theorem extract_sext (hn : n ∈ [5, 6, 9, 11]) : (sext n w).extractLsb' 0 n = w.extractLsb' 0 n := by
  have n_le : n ≤ 16 := (by decide : ∀ m ∈ [5, 6, 9, 11], m ≤ 16) n hn
  rw [sext_eq_signExtend n hn]
  apply BitVec.eq_of_getElem_eq
  intro k hk
  have hk16 : k < 16 := by omega
  simp [BitVec.getLsbD_eq_getElem, BitVec.getElem_signExtend, hk, hk16]

end

/-- R95: the six codes. -/
theorem service_code {code : Byte} (service : IsService code) : code = 0x20 ∨ code = 0x21 ∨ code = 0x22 ∨
    code = 0x23 ∨ code = 0x24 ∨ code = 0x25 := by
  simp only [← BitVec.toNat_inj]
  change code.toNat = 32 ∨ code.toNat = 33 ∨ code.toNat = 34 ∨ code.toNat = 35 ∨ code.toNat = 36 ∨ code.toNat = 37
  omega

/-- A code that names a service is that service's code. -/
theorem encode_decodeTrap {code : Byte} (service : IsService code) :
    ∃ i, decodeTrap code = .ok i ∧ i.wellFormed = true ∧ encode i = encode (.trapInvalid code) := by
  rcases service_code service with rfl | rfl | rfl | rfl | rfl | rfl <;> exact ⟨_, rfl, rfl, rfl⟩

/-! A word is put together again from its fields, bit by bit; the bits that no field reads are zero. -/

section
variable {w : Word} {o : BitVec 4}

theorem word_register (op : opcodeField w = o) (tag : w.getLsbD 5 = false) :
    word (o ++ regBits (drField w) ++ regBits (baseField w) ++ 0b000#3 ++ regBits (sr2Field w)) = w &&& 0xFFE7 := by
  subst op
  ext k hk
  interval_cases k <;> simp_all [-Nat.reduceAdd, BitVec.getElem_append, opcodeField, drField, baseField, sr2Field]

theorem word_immediate (op : opcodeField w = o) (tag : w.getLsbD 5 = true) :
    word (o ++ regBits (drField w) ++ regBits (baseField w) ++ 0b1#1 ++ (sext 5 w).extractLsb' 0 5) = w := by
  subst op
  rw [extract_sext w (by decide)]
  ext k hk
  interval_cases k <;> simp_all [-Nat.reduceAdd, BitVec.getElem_append, opcodeField, drField, baseField]

theorem word_base (op : opcodeField w = o) :
    word (o ++ regBits (drField w) ++ regBits (baseField w) ++ (sext 6 w).extractLsb' 0 6) = w := by
  subst op
  rw [extract_sext w (by decide)]
  ext k hk
  interval_cases k <;> simp [-Nat.reduceAdd, BitVec.getElem_append, opcodeField, drField, baseField] <;> rfl

theorem word_not (op : opcodeField w = o) :
    word (o ++ regBits (drField w) ++ regBits (baseField w) ++ 0b000000#6) = w &&& 0xFFC0 := by
  subst op
  ext k hk
  interval_cases k <;> simp [-Nat.reduceAdd, BitVec.getElem_append, opcodeField, drField, baseField] <;> rfl

theorem word_jump (op : opcodeField w = o) :
    word (o ++ 0b000#3 ++ regBits (baseField w) ++ 0b000000#6) = w &&& 0xF1C0 := by
  subst op
  ext k hk
  interval_cases k <;> simp [-Nat.reduceAdd, BitVec.getElem_append, opcodeField, baseField] <;> rfl

theorem word_offset (op : opcodeField w = o) :
    word (o ++ regBits (drField w) ++ (sext 9 w).extractLsb' 0 9) = w := by
  subst op
  rw [extract_sext w (by decide)]
  ext k hk
  interval_cases k <;> simp [-Nat.reduceAdd, BitVec.getElem_append, opcodeField, drField] <;> rfl

theorem word_branch (op : opcodeField w = o) : word (o ++ boolBit (w.getLsbD 11) ++ boolBit (w.getLsbD 10) ++
    boolBit (w.getLsbD 9) ++ (sext 9 w).extractLsb' 0 9) = w := by
  subst op
  rw [extract_sext w (by decide)]
  ext k hk
  interval_cases k <;> simp [-Nat.reduceAdd, BitVec.getElem_append, opcodeField, boolBit] <;> rfl

theorem word_jsr (op : opcodeField w = o) (tag : w.getLsbD 11 = true) :
    word (o ++ 0b1#1 ++ (sext 11 w).extractLsb' 0 11) = w := by
  subst op
  rw [extract_sext w (by decide)]
  ext k hk
  interval_cases k <;> simp_all [-Nat.reduceAdd, BitVec.getElem_append, opcodeField]

theorem word_jsrr (op : opcodeField w = o) (tag : w.getLsbD 11 = false) :
    word (o ++ 0b000#3 ++ regBits (baseField w) ++ 0b000000#6) = w &&& 0xF9C0 := by
  subst op
  ext k hk
  interval_cases k <;> simp_all [-Nat.reduceAdd, BitVec.getElem_append, opcodeField, baseField]

theorem word_opcode (op : opcodeField w = o) : word (o ++ 0#12) = w &&& 0xF000 := by
  subst op
  ext k hk
  interval_cases k <;> simp [-Nat.reduceAdd, BitVec.getElem_append, opcodeField] <;> rfl

theorem word_trap (op : opcodeField w = o) : word (o ++ 0b0000#4 ++ trapField w) = w &&& 0xF0FF := by
  subst op
  ext k hk
  interval_cases k <;> simp [-Nat.reduceAdd, BitVec.getElem_append, opcodeField, trapField] <;> rfl

/-! ### The bits a format uses -/

/-- BR, LD, ST, LDR, STR, LDI, STI and LEA use every bit. -/
theorem usedBits_all (op : opcodeField w = o) (all : o ∈ [0#4, 2#4, 3#4, 6#4, 7#4, 10#4, 11#4, 14#4]) :
    w &&& usedBits w = w := by
  have used : usedBits w = 0xFFFF := by
    rw [opcodeField] at op
    simp only [List.mem_cons, List.not_mem_nil, or_false] at all
    rcases all with rfl | rfl | rfl | rfl | rfl | rfl | rfl | rfl <;> simp only [usedBits, op] <;> rfl
  rw [used]
  exact BitVec.and_allOnes

/-- ADD and AND, immediate form. -/
theorem usedBits_immediate (op : opcodeField w = 0b0001 ∨ opcodeField w = 0b0101) (tag : w.getLsbD 5 = true) :
    w &&& usedBits w = w := by
  have used : usedBits w = 0xFFFF := by
    rw [opcodeField] at op
    rcases op with op | op <;> simp only [usedBits, op, tag] <;> rfl
  rw [used]
  exact BitVec.and_allOnes

/-- ADD and AND, register form. -/
theorem usedBits_register (op : opcodeField w = 0b0001 ∨ opcodeField w = 0b0101) (tag : w.getLsbD 5 = false) :
    usedBits w = 0xFFE7 := by
  rw [opcodeField] at op
  rcases op with op | op <;> simp only [usedBits, op, tag] <;> rfl

theorem usedBits_jsr (op : opcodeField w = 0b0100) (tag : w.getLsbD 11 = true) : w &&& usedBits w = w := by
  have used : usedBits w = 0xFFFF := by
    rw [opcodeField] at op
    simp only [usedBits, op, tag]; rfl
  rw [used]
  exact BitVec.and_allOnes

theorem usedBits_jsrr (op : opcodeField w = 0b0100) (tag : w.getLsbD 11 = false) : usedBits w = 0xF9C0 := by
  rw [opcodeField] at op
  simp only [usedBits, op, tag]; rfl

theorem usedBits_not (op : opcodeField w = 0b1001) : usedBits w = 0xFFC0 := by
  rw [opcodeField] at op
  simp only [usedBits, op]; rfl

/-- JMP and RET. -/
theorem usedBits_jump (op : opcodeField w = 0b1100) : usedBits w = 0xF1C0 := by
  rw [opcodeField] at op
  simp only [usedBits, op]; rfl

/-- RTI and RESERVED. -/
theorem usedBits_opcode (op : opcodeField w = 0b1000 ∨ opcodeField w = 0b1101) : usedBits w = 0xF000 := by
  rw [opcodeField] at op
  rcases op with op | op <;> simp only [usedBits, op] <;> rfl

theorem usedBits_trap (op : opcodeField w = 0b1111) : usedBits w = 0xF0FF := by
  rw [opcodeField] at op
  simp only [usedBits, op]; rfl

/-! ### The encoding of a decoded word -/

/-- The claim of R98 about one word, but for its last part, which follows from the others. -/
def ReadsUsedBits (w : Word) : Prop := (decode w).wellFormed = true ∧ encode (decode w) = w &&& usedBits w

/-- Opcodes 0001 and 0101, whose bit 5 tells the immediate form from the register form (R84). -/
theorem readsUsedBits_alu (op : opcodeField w = 0b0001 ∨ opcodeField w = 0b0101) : ReadsUsedBits w := by
  cases tag : w.getLsbD 5 with
  | true =>
    have fits := decide_eq_true (fitsSigned_sext (n := 5) w (by decide))
    rw [ReadsUsedBits, usedBits_immediate op tag]
    rcases op with op | op
    · exact decode_addImm op tag ▸ ⟨fits, word_immediate op tag⟩
    · exact decode_andImm op tag ▸ ⟨fits, word_immediate op tag⟩
  | false =>
    rw [ReadsUsedBits, usedBits_register op tag]
    rcases op with op | op
    · exact decode_addReg op tag ▸ ⟨rfl, word_register op tag⟩
    · exact decode_andReg op tag ▸ ⟨rfl, word_register op tag⟩

/-- Opcode 0100, whose bit 11 tells JSR from JSRR (R88, R89). -/
theorem readsUsedBits_jsr (op : opcodeField w = 0b0100) : ReadsUsedBits w := by
  cases tag : w.getLsbD 11 with
  | true =>
    rw [ReadsUsedBits, usedBits_jsr op tag, decode_jsr op tag]
    exact ⟨decide_eq_true (fitsSigned_sext w (by decide)), word_jsr op tag⟩
  | false =>
    rw [ReadsUsedBits, usedBits_jsrr op tag, decode_jsrr op tag]
    exact ⟨rfl, word_jsrr op tag⟩

/-- Opcode 1100, whose base register tells RET from JMP (R87). -/
theorem readsUsedBits_jump (op : opcodeField w = 0b1100) : ReadsUsedBits w := by
  have whole := word_jump op
  rw [ReadsUsedBits, usedBits_jump op]
  by_cases base : baseField w = 7
  · rw [decode_ret op base]
    rw [base] at whole
    exact ⟨rfl, whole⟩
  · rw [decode_jmp op base]
    exact ⟨decide_eq_true base, whole⟩

/-- Opcode 1111: a service, or a code that names none. -/
theorem readsUsedBits_trap (op : opcodeField w = 0b1111) : ReadsUsedBits w := by
  have verdict := decodeWord_trap op
  rw [ReadsUsedBits, usedBits_trap op]
  by_cases service : IsService (trapField w)
  · obtain ⟨i, named, wf, code⟩ := encode_decodeTrap service
    rw [decode_of_ok (verdict.trans named)]
    exact ⟨wf, code.trans (word_trap op)⟩
  · rw [decode_of_error (verdict.trans (decodeTrap_of_not_service service))]
    exact ⟨decide_eq_true service, word_trap op⟩

/-- Every opcode value (R96). -/
theorem opcode_cases (o : BitVec 4) : o = 0b0000 ∨ o = 0b0001 ∨ o = 0b0010 ∨ o = 0b0011 ∨ o = 0b0100 ∨ o = 0b0101 ∨
    o = 0b0110 ∨ o = 0b0111 ∨ o = 0b1000 ∨ o = 0b1001 ∨ o = 0b1010 ∨ o = 0b1011 ∨ o = 0b1100 ∨ o = 0b1101 ∨
    o = 0b1110 ∨ o = 0b1111 := by
  revert o; decide

theorem readsUsedBits (w : Word) : ReadsUsedBits w := by
  have fits6 := decide_eq_true (fitsSigned_sext (n := 6) w (by decide))
  have fits9 := decide_eq_true (fitsSigned_sext (n := 9) w (by decide))
  rcases opcode_cases (opcodeField w) with
    op | op | op | op | op | op | op | op | op | op | op | op | op | op | op | op
  · rw [ReadsUsedBits, decode_br op, usedBits_all op (by decide)]
    exact ⟨fits9, word_branch op⟩
  · exact readsUsedBits_alu (.inl op)
  · rw [ReadsUsedBits, decode_ld op, usedBits_all op (by decide)]
    exact ⟨fits9, word_offset op⟩
  · rw [ReadsUsedBits, decode_st op, usedBits_all op (by decide)]
    exact ⟨fits9, word_offset op⟩
  · exact readsUsedBits_jsr op
  · exact readsUsedBits_alu (.inr op)
  · rw [ReadsUsedBits, decode_ldr op, usedBits_all op (by decide)]
    exact ⟨fits6, word_base op⟩
  · rw [ReadsUsedBits, decode_str op, usedBits_all op (by decide)]
    exact ⟨fits6, word_base op⟩
  · rw [ReadsUsedBits, decode_of_ok (decodeWord_rti op), usedBits_opcode (.inl op)]
    exact ⟨rfl, word_opcode op⟩
  · rw [ReadsUsedBits, decode_not op, usedBits_not op]
    exact ⟨rfl, word_not op⟩
  · rw [ReadsUsedBits, decode_ldi op, usedBits_all op (by decide)]
    exact ⟨fits9, word_offset op⟩
  · rw [ReadsUsedBits, decode_sti op, usedBits_all op (by decide)]
    exact ⟨fits9, word_offset op⟩
  · exact readsUsedBits_jump op
  · rw [ReadsUsedBits, decode_of_ok (decodeWord_reserved op), usedBits_opcode (.inr op)]
    exact ⟨rfl, word_opcode op⟩
  · rw [ReadsUsedBits, decode_lea op, usedBits_all op (by decide)]
    exact ⟨fits9, word_offset op⟩
  · exact readsUsedBits_trap op

end

/-- Settles O2: the first two parts by the opcode; with them the third is O1 of the decoded instruction. -/
theorem decodeReadsExactlyTheUsedBits : Obligations.DecodeReadsExactlyTheUsedBits := by
  intro w
  obtain ⟨wf, used⟩ := readsUsedBits w
  exact ⟨wf, used, by rw [← used, decodeOfEncodeIsTheInstruction _ wf]⟩

end Sys2Proof.Proofs
end

section
/-! PROOF. What an instruction can do, said once. An instruction is a sequence of the operations its row of the access
tables allows it (10_state.md R24, R35; 20_memory.md R51; 40_cycle.md R127): what these operations keep, the
instruction keeps, and so does a step. -/

namespace Sys2Proof.Proofs

open Sys2Proof.Machine Sys2Proof.Machine.Laws

/-! ### What holds after a phase -/

/-- After the phase, `P` holds if the step goes on and `Q` if it has ended. -/
def Meets {α : Type} (P Q : State → Prop) : Phase α → Prop
  | .ok _ s => P s
  | .ended s => Q s

section
variable {α β : Type} {P Q R : State → Prop} {phase : Phase α}

@[simp] theorem meets_ok {v : α} {s : State} : Meets P Q (.ok v s) ↔ P s := .rfl

@[simp] theorem meets_ended {s : State} : Meets P Q (.ended s : Phase α) ↔ Q s := .rfl

theorem Meets.andThen {rest : α → State → Phase β} (first : Meets P Q phase)
    (next : ∀ v s, phase = .ok v s → P s → Meets R Q (rest v s)) : Meets R Q (phase.andThen rest) := by
  cases phase with
  | ok v s => exact next v s rfl first
  | ended s => exact first

/-- A step whose last phase goes on has finished. -/
theorem Meets.outcome {phase : Phase Unit} (met : Meets P Q phase) (done : ∀ s, P s → Q s) :
    ∃ t, phase.outcome = .next t ∧ Q t := by
  cases phase with
  | ok _ s => exact ⟨s, rfl, done s met⟩
  | ended s => exact ⟨s, rfl, met⟩

theorem meets_left : Meets P P phase ↔ P (left phase) := by cases phase <;> rfl

end

/-! ### What each instruction may do -/

/-- The instructions that write the console, with these parameters (10_state.md R35, 44_trap_system.md R205). -/
def WritesConsole (p : Params) (i : Instr) : Prop :=
  i = .trapOut ∨ i = .trapPuts ∨ i = .trapPutsp ∨ i = .trapIn ∧ (p.inPrompt ≠ [] ∨ p.inEcho = true)

/-- The addresses an instruction may read. The walk of a string alone counts past the top (44_trap_system.md R208). -/
def ReadsAt (i : Instr) (a : Nat) : Prop :=
  ReadsMemory i ∧ (a < memWords ∨ a = memWords ∧ (i = .trapPuts ∨ i = .trapPutsp))

/-- The reasons an instruction raises itself, from the state `s` (60_exceptions.md R230). -/
def Raises (s : State) : Instr → Reason → Prop
  | .trapHalt, r => r = .halt
  | .reserved, r => r = .illegalInstruction (fetchedWord s)
  | .trapInvalid _, r => r = .decodeFailure (fetchedWord s)
  | _, _ => False

/-- Every operation that `i` may perform, run from `s`, keeps `P`; where one ends the step, `Q` holds. -/
structure Keeps (i : Instr) (s : State) (P Q : State → Prop) : Prop where
  done : ∀ t, P t → Q t
  setReg : ∀ r v t, WritesReg i r → P t → P (t.setReg r v)
  setcc : ∀ v t, SetsFlags i → P t → P (setcc v t)
  setPc : ∀ a t, TransfersControl i → P t → P (t.setPc a)
  setCell : ∀ a v t, Stores i → a < memWords → P t → P (t.setCell a v)
  memRead : ∀ a t, ReadsAt i a → P t → Meets P Q (memRead a t)
  consoleRead : ∀ service t, i = .trapGetc ∨ i = .trapIn → P t → Meets P Q (consoleRead service t)
  consoleWrite : ∀ b t, WritesConsole s.params i → P t → Meets P Q (consoleWrite b t)
  raise : ∀ r t, Raises s i r → P t → Q (raise r t)

/-! ### The instructions keep what their operations keep -/

section
variable {i : Instr} {s t : State} {P Q : State → Prop}

theorem keeps_writeResult (keeps : Keeps i s P Q) {r : Reg} (flags : SetsFlags i) (writes : WritesReg i r) (v : Word)
    (holds : P t) : P (writeResult r v t) :=
  keeps.setcc v _ flags (keeps.setReg r v t writes holds)

theorem keeps_link (keeps : Keeps i s P Q) (writes : WritesReg i linkReg) (holds : P t) : P t.link :=
  keeps.setReg linkReg t.pc t writes holds

theorem meets_memRead_word (keeps : Keeps i s P Q) (reads : ReadsMemory i) (a : Word) (holds : P t) :
    Meets P Q (memRead a.toNat t) :=
  keeps.memRead a.toNat t ⟨reads, .inl (word_lt_memWords a)⟩ holds

theorem meets_loadFrom (keeps : Keeps i s P Q) (reads : ReadsMemory i) {dr : Reg} (flags : SetsFlags i)
    (writes : WritesReg i dr) (a : Word) (holds : P t) : Meets P Q (loadFrom dr a t) :=
  (meets_memRead_word keeps reads a holds).andThen fun v _ _ holds => keeps_writeResult keeps flags writes v holds

theorem meets_storeTo (keeps : Keeps i s P Q) (stores : Stores i) (sr : Reg) (a : Word) (holds : P t) :
    Meets P Q (storeTo sr a t) := by
  rw [storeTo, memWrite_word]
  exact keeps.setCell a.toNat _ t stores (word_lt_memWords a) holds

theorem meets_consoleWriteAll (keeps : Keeps i s P Q) (writes : WritesConsole s.params i) (bytes : List Byte)
    (holds : P t) : Meets P Q (consoleWriteAll bytes t) := by
  induction bytes generalizing t with
  | nil => exact holds
  | cons b rest ih => exact (keeps.consoleWrite b t writes holds).andThen fun _ _ _ holds => ih holds

/-- The walk stays below the top, or reaches it after its last cell. -/
theorem meets_writeString (keeps : Keeps i s P Q) (string : i = .trapPuts ∨ i = .trapPutsp)
    (bytes : Word → List Byte) (cells addr : Nat) (top : addr + cells = memWords) (holds : P t) :
    Meets P Q (writeString bytes cells addr t) := by
  have reads : ReadsMemory i := by rcases string with rfl | rfl <;> trivial
  have writes : WritesConsole s.params i := string.elim (fun e => .inr (.inl e)) (fun e => .inr (.inr (.inl e)))
  induction cells generalizing addr t with
  | zero =>
    exact (keeps.memRead addr t ⟨reads, .inr ⟨top, string⟩⟩ holds).andThen fun _ _ _ holds => holds
  | succ cells ih =>
    refine (keeps.memRead addr t ⟨reads, .inl (by omega)⟩ holds).andThen fun c u _ holds => ?_
    split
    · exact holds
    · exact (meets_consoleWriteAll keeps writes (bytes c) holds).andThen
        fun _ _ _ holds => ih (addr + 1) (by omega) holds

theorem meets_writeStringAtR0 (keeps : Keeps i s P Q) (string : i = .trapPuts ∨ i = .trapPutsp)
    (bytes : Word → List Byte) (holds : P t) : Meets P Q (writeStringAtR0 bytes t) := by
  have bound := word_lt_memWords (t.reg 0)
  exact meets_writeString keeps string bytes _ _ (by omega) holds

theorem keeps_acceptByte (keeps : Keeps i s P Q) (service : i = .trapGetc ∨ i = .trapIn) (b : Byte) (holds : P t) :
    P (acceptByte b t) := by
  rcases service with rfl | rfl <;> exact keeps_writeResult keeps ⟨0, rfl⟩ (.inr rfl) _ holds

/-- GETC after its read; the read itself may start from a weaker condition, as that of a held step does. -/
theorem meets_getcRead (keeps : Keeps .trapGetc s P Q) (read : Meets P Q (consoleRead .getc t)) :
    Meets P Q (getcRead t) :=
  read.andThen fun b _ _ holds => keeps_acceptByte keeps (.inl rfl) b holds

theorem params_of_consoleRead_ok {service : HeldRead} {b : Byte} {u : State} (read : consoleRead service t = .ok b u) :
    u.params = t.params := by
  rcases consoleRead_cases service t with ⟨-, e⟩ | ⟨_, -, -, e⟩ | ⟨-, -, e⟩ <;> cases e.symm.trans read
  rfl

/-- IN after its read: the echo, where the parameters ask for one, then R0. -/
theorem meets_inRead (keeps : Keeps .trapIn s P Q) (same : t.params = s.params)
    (read : Meets P Q (consoleRead .inService t)) : Meets P Q (inRead t) := by
  refine read.andThen fun b u taken holds => ?_
  refine Meets.andThen (P := P) ?_ fun _ _ _ holds => keeps_acceptByte keeps (.inr rfl) b holds
  split
  · next echo =>
    rw [params_of_consoleRead_ok taken, same] at echo
    exact keeps.consoleWrite b u (.inr (.inr (.inr ⟨rfl, .inr echo⟩))) holds
  · exact holds

/-- IN's prompt, where there is one. -/
theorem meets_prompt (keeps : Keeps .trapIn s P Q) (holds : P t) :
    Meets P Q (consoleWriteAll s.params.inPrompt t) := by
  by_cases silent : s.params.inPrompt = []
  · rw [silent]
    exact holds
  · exact meets_consoleWriteAll keeps (.inr (.inr (.inr ⟨rfl, .inl silent⟩))) _ holds

theorem params_of_consoleWriteAll_ok {bytes : List Byte} {u : State} (wrote : consoleWriteAll bytes t = .ok () u) :
    u.params = t.params := by
  simpa [wrote] using (writeOnly_consoleWriteAll bytes t).params

/-- Every instruction answers a next state, and there what its operations keep holds. -/
theorem exec_keeps (keeps : Keeps i s P Q) (holds : P s) : ∃ t, exec i s = .next t ∧ Q t := by
  cases i with
  | addReg dr _ _ | addImm dr _ _ | andReg dr _ _ | andImm dr _ _ | not dr _ | lea dr _ =>
    exact ⟨_, rfl, keeps.done _ (keeps_writeResult keeps ⟨dr, rfl⟩ rfl _ holds)⟩
  | br n z p offset => exact ⟨_, exec_br n z p offset s, keeps.done _ (keeps.setPc _ _ trivial holds)⟩
  | ret | jmp _ => exact ⟨_, rfl, keeps.done _ (keeps.setPc _ _ trivial holds)⟩
  | jsr _ => exact ⟨_, rfl, keeps.done _ (keeps.setPc _ _ trivial (keeps_link keeps rfl holds))⟩
  | jsrr _ =>
    refine ⟨_, rfl, keeps.done _ ?_⟩
    split <;> exact keeps.setPc _ _ trivial (keeps_link keeps rfl holds)
  | ld dr _ | ldr dr _ _ => exact (meets_loadFrom keeps trivial ⟨dr, rfl⟩ rfl _ holds).outcome keeps.done
  | ldi dr _ =>
    exact ((meets_memRead_word keeps trivial _ holds).andThen fun a _ _ holds =>
      meets_loadFrom keeps trivial ⟨dr, rfl⟩ rfl a holds).outcome keeps.done
  | st sr _ | str sr _ _ => exact (meets_storeTo keeps trivial sr _ holds).outcome keeps.done
  | sti sr _ =>
    exact ((meets_memRead_word keeps trivial _ holds).andThen fun a _ _ holds =>
      meets_storeTo keeps trivial sr a holds).outcome keeps.done
  | rti => exact ⟨_, rfl, keeps.done _ holds⟩
  | reserved | trapInvalid _ => exact ⟨_, rfl, keeps.raise _ _ rfl holds⟩
  | trapGetc =>
    have linked := keeps_link keeps (.inl rfl) holds
    exact (meets_getcRead keeps (keeps.consoleRead .getc _ (.inl rfl) linked)).outcome keeps.done
  | trapOut => exact (keeps.consoleWrite _ _ (.inl rfl) (keeps_link keeps rfl holds)).outcome keeps.done
  | trapPuts =>
    have linked := keeps_link keeps rfl holds
    exact (meets_writeStringAtR0 keeps (.inl rfl) putsBytes linked).outcome keeps.done
  | trapIn =>
    have linked := keeps_link keeps (.inl rfl) holds
    exact ((meets_prompt keeps linked).andThen fun _ u wrote holds =>
      meets_inRead keeps (params_of_consoleWriteAll_ok (t := s.link) wrote)
        (keeps.consoleRead .inService u (.inr rfl) holds)).outcome keeps.done
  | trapPutsp =>
    have linked := keeps_link keeps rfl holds
    exact (meets_writeStringAtR0 keeps (.inr rfl) putspBytes linked).outcome keeps.done
  | trapHalt => exact ⟨_, rfl, keeps.raise _ _ rfl (keeps_link keeps rfl holds)⟩

/-- What every operation keeps is kept by every step, fetch and held read included. -/
theorem step_keeps (keeps : ∀ i s, Keeps i s P Q) (stepped : step s = .next t)
    (held : ∀ service, s.hold = some service → Meets P Q (consoleRead service s))
    (fetched : s.hold = none → Meets P Q (memRead s.pc.toNat s))
    (advance : ∀ a u, P u → P (u.setPc a)) : Q t := by
  obtain ⟨-, ⟨service, isHeld, rfl⟩ | ⟨unheld, ended⟩ | ⟨w, u, unheld, read, ran⟩⟩ := step_cases stepped
  · have resumed : Meets P Q (resumeRead service s) := by
      cases service with
      | getc => exact meets_getcRead (keeps _ s) (held _ isHeld)
      | inService => exact meets_inRead (keeps _ s) rfl (held _ isHeld)
    cases phase : resumeRead service s with
    | ok _ u => exact (keeps .rti s).done u (by simpa [phase] using resumed)
    | ended u => simpa [phase] using resumed
  · simpa [ended] using fetched unheld
  · have holds : P u := by simpa [read] using fetched unheld
    exact of_exec_next ran (exec_keeps (keeps _ _) (advance _ u holds))

end

end Sys2Proof.Proofs
end

section
/-! PROOF. The rules about the whole machine (10_state.md, 20_memory.md, 60_exceptions.md): each is a property that the
operations keep, and an instruction or a step then keeps it. -/

namespace Sys2Proof.Proofs

open Sys2Proof.Machine Sys2Proof.Machine.Laws

/-! ### What the console primitives leave unchanged -/

/-- Nothing but the input port, the hold and, on a failure, the run state is touched: what a ConsoleRead may do. -/
structure InputOnly (s t : State) : Prop where
  regs : t.regs = s.regs
  pc : t.pc = s.pc
  cond : t.cond = s.cond
  mem : t.mem = s.mem
  params : t.params = s.params
  output : t.output = s.output
  outputDraws : t.outputDraws = s.outputDraws
  stream : t.taken ++ t.input = s.taken ++ s.input

theorem inputOnly_consoleRead (service : HeldRead) (s : State) : InputOnly s (left (consoleRead service s)) := by
  rcases consoleRead_cases service s with ⟨-, e⟩ | ⟨b, -, -, e⟩ | ⟨-, -, e⟩ <;> rw [e]
  · exact ⟨rfl, rfl, rfl, rfl, rfl, rfl, rfl, rfl⟩
  · exact ⟨rfl, rfl, rfl, rfl, rfl, rfl, rfl, takeByte_stream _⟩
  · exact ⟨rfl, rfl, rfl, rfl, rfl, rfl, rfl, rfl⟩

section
variable {s t : State} {i : Instr} {r : Reg} {a : Nat}

theorem reg_of_regs {q : Reg} (same : t.regs = s.regs) : t.reg q = s.reg q := by
  rw [State.reg, State.reg, same]

theorem cell_of_mem {k : Nat} (same : t.mem = s.mem) : t.cell k = s.cell k := by
  rw [State.cell, State.cell, same]

/-! ### The invariant (20_memory.md section 1, 40_cycle.md R129) -/

/-- In the middle of a step memory is canonical, and no read is held yet. -/
structure MidStep (s : State) : Prop where
  wf : s.mem.wf
  unheld : s.hold = none
  running : s.run = .running

theorem inv_of_unheld (wf : s.mem.wf) (unheld : s.hold = none) : s.Inv := ⟨wf, fun held => absurd unheld held⟩

/-- A read clears the hold, but for the read that holds its step, and a held machine runs. -/
theorem meets_inv_consoleRead (service : HeldRead) (wf : s.mem.wf) (running : s.run = .running) :
    Meets MidStep State.Inv (consoleRead service s) := by
  rcases consoleRead_cases service s with ⟨-, e⟩ | ⟨b, -, -, e⟩ | ⟨-, -, e⟩ <;> rw [e]
  · exact inv_of_unheld wf rfl
  · exact ⟨wf, rfl, running⟩
  · exact ⟨wf, fun _ => running⟩

theorem meets_inv_memRead (a : Nat) (mid : MidStep s) : Meets MidStep State.Inv (memRead a s) := by
  have wf := wf_memRead a s mid.wf
  have unheld := (readOnly_memRead a s).hold.trans mid.unheld
  cases read : memRead a s with
  | ok v t =>
    rw [read] at wf unheld
    exact ⟨wf, unheld, (run_memRead_ok read).trans mid.running⟩
  | ended t =>
    rw [read] at wf unheld
    exact inv_of_unheld wf unheld

theorem meets_inv_consoleWrite (b : Byte) (mid : MidStep s) : Meets MidStep State.Inv (consoleWrite b s) := by
  rcases consoleWrite_cases b s with ⟨-, e⟩ | ⟨-, e⟩ <;> rw [e]
  · exact inv_of_unheld mid.wf mid.unheld
  · exact ⟨mid.wf, mid.unheld, mid.running⟩

theorem keeps_inv (i : Instr) (s : State) : Keeps i s MidStep State.Inv where
  done _ mid := inv_of_unheld mid.wf mid.unheld
  setReg _ _ _ _ mid := ⟨mid.wf, mid.unheld, mid.running⟩
  setcc _ _ _ mid := ⟨mid.wf, mid.unheld, mid.running⟩
  setPc _ _ _ mid := ⟨mid.wf, mid.unheld, mid.running⟩
  setCell a v t _ below mid := ⟨wf_write t.mem a v below mid.wf, mid.unheld, mid.running⟩
  memRead a _ _ mid := meets_inv_memRead a mid
  consoleRead service _ _ mid := meets_inv_consoleRead service mid.wf mid.running
  consoleWrite b _ _ mid := meets_inv_consoleWrite b mid
  raise _ _ _ mid := inv_of_unheld mid.wf mid.unheld

/-- Settles O43: between the operations of a step memory is canonical and nothing is held; the one operation that
holds ends the step, and the machine runs. -/
theorem everyStepKeepsTheInvariant : Obligations.EveryStepKeepsTheInvariant := by
  rintro s t ⟨wf, -⟩ stepped
  obtain ⟨running, -⟩ := step_cases stepped
  exact step_keeps keeps_inv stepped (fun service _ => meets_inv_consoleRead service wf running)
    (fun unheld => meets_inv_memRead _ ⟨wf, unheld, running⟩) fun _ _ mid => ⟨mid.wf, mid.unheld, mid.running⟩

/-! ### The condition state (10_state.md R26, R27) -/

theorem keeps_cond_set (i : Instr) (s : State) : Keeps i s (·.cond ≠ .unset) (·.cond ≠ .unset) where
  done _ set := set
  setReg _ _ _ _ set := set
  setcc v _ _ _ := condOf_ne_unset v
  setPc _ _ _ set := set
  setCell _ _ _ _ _ set := set
  memRead a t _ set := meets_left.mpr ((readOnly_memRead a t).cond ▸ set)
  consoleRead service t _ set := meets_left.mpr ((inputOnly_consoleRead service t).cond ▸ set)
  consoleWrite b t _ set := meets_left.mpr ((writeOnly_consoleWrite b t).cond ▸ set)
  raise _ _ _ set := set

/-- Settles O45: the flags are only ever set from a word, and no word's class is Unset. -/
theorem unsetNeverComesBack : Obligations.UnsetNeverComesBack :=
  ⟨fun _ => rfl, fun s _ stepped set =>
    step_keeps keeps_cond_set stepped (fun service _ => meets_left.mpr ((inputOnly_consoleRead service s).cond ▸ set))
      (fun _ => meets_left.mpr ((readOnly_memRead _ s).cond ▸ set)) fun _ _ set => set⟩

theorem keeps_cond (unflagged : ¬ SetsFlags i) : Keeps i s (·.cond = s.cond) (·.cond = s.cond) where
  done _ same := same
  setReg _ _ _ _ same := same
  setcc _ _ flagged := absurd flagged unflagged
  setPc _ _ _ same := same
  setCell _ _ _ _ _ same := same
  memRead a t _ same := meets_left.mpr ((readOnly_memRead a t).cond.trans same)
  consoleRead service t _ same := meets_left.mpr ((inputOnly_consoleRead service t).cond.trans same)
  consoleWrite b t _ same := meets_left.mpr ((writeOnly_consoleWrite b t).cond.trans same)
  raise _ _ _ same := same

/-- Settles O46: only setcc writes the condition state. -/
theorem onlyFlagSettersChangeCond : Obligations.OnlyFlagSettersChangeCond :=
  fun _ _ _ ran unflagged => of_exec_next ran (exec_keeps (keeps_cond unflagged) rfl)

/-! ### Registers and cells (10_state.md R24, 20_memory.md R51) -/

theorem keeps_reg (unwritten : ¬ WritesReg i r) : Keeps i s (·.reg r = s.reg r) (·.reg r = s.reg r) where
  done _ same := same
  setReg q v t writes same := (reg_setReg_ne r q v t (by rintro rfl; exact unwritten writes)).trans same
  setcc _ _ _ same := same
  setPc _ _ _ same := same
  setCell _ _ _ _ _ same := same
  memRead a t _ same := meets_left.mpr ((reg_of_regs (readOnly_memRead a t).regs).trans same)
  consoleRead service t _ same := meets_left.mpr ((reg_of_regs (inputOnly_consoleRead service t).regs).trans same)
  consoleWrite b t _ same := meets_left.mpr ((reg_of_regs (writeOnly_consoleWrite b t).regs).trans same)
  raise _ _ _ same := same

/-- Settles O47: only setReg writes a register, and an instruction uses it on its named ones. -/
theorem onlyNamedRegistersChange : Obligations.OnlyNamedRegistersChange :=
  fun _ _ _ _ ran unwritten => of_exec_next ran (exec_keeps (keeps_reg unwritten) rfl)

theorem keeps_cell (storeless : ¬ Stores i) (untouched : (a ≠ kbsrAddr ∧ a ≠ kbdrAddr) ∨ ¬ ReadsMemory i) :
    Keeps i s (·.cell a = s.cell a) (·.cell a = s.cell a) where
  done _ same := same
  setReg _ _ _ _ same := same
  setcc _ _ _ same := same
  setPc _ _ _ same := same
  setCell _ _ _ stores := absurd stores storeless
  memRead addr t reads same := by
    obtain ⟨ordinary, ordinary'⟩ := untouched.resolve_right fun readless => readless reads.1
    exact meets_left.mpr (((readOnly_memRead addr t).cells a ordinary ordinary').trans same)
  consoleRead service t _ same := meets_left.mpr ((cell_of_mem (inputOnly_consoleRead service t).mem).trans same)
  consoleWrite b t _ same := meets_left.mpr ((cell_of_mem (writeOnly_consoleWrite b t).mem).trans same)
  raise _ _ _ same := same

/-- Settles O48: a store writes any cell, a read of memory the keyboard's two, and nothing else writes one. -/
theorem onlyStoresChangeOrdinaryCells : Obligations.OnlyStoresChangeOrdinaryCells :=
  fun _ _ _ _ ran storeless untouched => of_exec_next ran (exec_keeps (keeps_cell storeless untouched) rfl)

/-! ### Output (10_state.md R35) -/

theorem keeps_output (silent : ¬ WritesConsole s.params i) : Keeps i s (·.output = s.output) (·.output = s.output) where
  done _ same := same
  setReg _ _ _ _ same := same
  setcc _ _ _ same := same
  setPc _ _ _ same := same
  setCell _ _ _ _ _ same := same
  memRead a t _ same := meets_left.mpr ((readOnly_memRead a t).output.trans same)
  consoleRead service t _ same := meets_left.mpr ((inputOnly_consoleRead service t).output.trans same)
  consoleWrite _ _ writes := absurd writes silent
  raise _ _ _ same := same

theorem keeps_output_grows (i : Instr) (s : State) :
    Keeps i s (s.output <+: ·.output) (s.output <+: ·.output) where
  done _ grown := grown
  setReg _ _ _ _ grown := grown
  setcc _ _ _ grown := grown
  setPc _ _ _ grown := grown
  setCell _ _ _ _ _ grown := grown
  memRead a t _ grown := meets_left.mpr ((readOnly_memRead a t).output ▸ grown)
  consoleRead service t _ grown := meets_left.mpr ((inputOnly_consoleRead service t).output ▸ grown)
  consoleWrite b t _ grown := by
    obtain ⟨bytes, more⟩ := (writeOnly_consoleWrite b t).grows
    exact meets_left.mpr (grown.trans ⟨bytes, more.symm⟩)
  raise _ _ _ grown := grown

/-- Settles O49: only ConsoleWrite changes the output, at its end; without it no byte is added. -/
theorem onlyFourServicesWriteOutput : Obligations.OnlyFourServicesWriteOutput := by
  intro i s t ran
  by_cases writes : WritesConsole s.params i
  · obtain ⟨bytes, grown⟩ := of_exec_next ran (exec_keeps (keeps_output_grows i s) ⟨[], List.append_nil _⟩)
    refine ⟨bytes, grown.symm, fun out puts putsp input => ?_, fun input unprompted unechoed => ?_⟩
    · simp [WritesConsole, out, puts, putsp, input] at writes
    · simp [WritesConsole, input, unprompted, unechoed] at writes
  · have same := of_exec_next ran (exec_keeps (keeps_output writes) rfl)
    exact ⟨[], by simpa using same, fun _ _ _ _ => rfl, fun _ _ _ => rfl⟩

/-! ### Input (10_state.md R34) -/

/-- `t` has the stream and the parameters of `s`. -/
def SameStream (s t : State) : Prop := t.taken ++ t.input = s.taken ++ s.input ∧ t.params = s.params

theorem SameStream.trans {u : State} : SameStream s t → SameStream t u → SameStream s u :=
  fun ⟨stream, params⟩ ⟨stream', params'⟩ => ⟨stream'.trans stream, params'.trans params⟩

theorem sameStream_memRead (a : Nat) (s : State) : SameStream s (left (memRead a s)) :=
  ⟨(readOnly_memRead a s).stream, (readOnly_memRead a s).params⟩

theorem sameStream_consoleRead (service : HeldRead) (s : State) : SameStream s (left (consoleRead service s)) :=
  ⟨(inputOnly_consoleRead service s).stream, (inputOnly_consoleRead service s).params⟩

theorem sameStream_consoleWrite (b : Byte) (s : State) : SameStream s (left (consoleWrite b s)) :=
  ⟨(writeOnly_consoleWrite b s).console.stream, (writeOnly_consoleWrite b s).params⟩

theorem keeps_sameStream (s₀ : State) (i : Instr) (s : State) : Keeps i s (SameStream s₀) (SameStream s₀) where
  done _ same := same
  setReg _ _ _ _ same := same
  setcc _ _ _ same := same
  setPc _ _ _ same := same
  setCell _ _ _ _ _ same := same
  memRead a t _ same := meets_left.mpr (same.trans (sameStream_memRead a t))
  consoleRead service t _ same := meets_left.mpr (same.trans (sameStream_consoleRead service t))
  consoleWrite b t _ same := meets_left.mpr (same.trans (sameStream_consoleWrite b t))
  raise _ _ _ same := same

/-- Settles O50: a byte leaves the input only to join the bytes taken, and nothing writes the parameters. -/
theorem inputStreamIsConserved : Obligations.InputStreamIsConserved := fun s _ stepped =>
  step_keeps (keeps_sameStream s) stepped (fun service _ => meets_left.mpr (sameStream_consoleRead service s))
    (fun _ => meets_left.mpr (sameStream_memRead _ s)) fun _ _ same => same

/-! ### Console failures (70_reset_and_hazards.md R267) -/

/-- No console call has failed, and none will. -/
def NoFailure (s : State) : Prop := s.HostReliable ∧ s.run ≠ .halted .ioFailure

theorem inputDraw_of_reliable (reliable : s.HostReliable) : s.inputDraw ≠ .fails := by
  obtain ⟨inputs, -⟩ := reliable
  unfold State.inputDraw
  cases draws : s.inputDraws with
  | nil => simp
  | cons d _ => exact inputs d (by simp [draws])

theorem outputDraw_of_reliable (reliable : s.HostReliable) : s.outputDraw ≠ .fails := by
  obtain ⟨-, outputs⟩ := reliable
  unfold State.outputDraw
  cases draws : s.outputDraws with
  | nil => simp
  | cons d _ => exact outputs d (by simp [draws])

theorem NoFailure.spendInputDraw : NoFailure s → NoFailure s.spendInputDraw :=
  fun ⟨⟨inputs, outputs⟩, fine⟩ => ⟨⟨fun d draw => inputs d (List.mem_of_mem_tail draw), outputs⟩, fine⟩

theorem NoFailure.spendOutputDraw : NoFailure s → NoFailure s.spendOutputDraw :=
  fun ⟨⟨inputs, outputs⟩, fine⟩ => ⟨⟨inputs, fun d draw => outputs d (List.mem_of_mem_tail draw)⟩, fine⟩

theorem noFailure_memRead (a : Nat) (fine : NoFailure s) : Meets NoFailure NoFailure (memRead a s) := by
  rcases memRead_cases a s with ⟨_, e⟩ | ⟨_, draw, _⟩ | ⟨b, _, _, _, e⟩ | ⟨_, _, _, e⟩ | ⟨_, _, e⟩
  · rw [e]
    exact ⟨fine.1, by simp⟩
  · exact absurd draw (inputDraw_of_reliable fine.1)
  · rw [e, meets_ok]
    unfold polledByte
    dsimp only
    split <;> exact fine.spendInputDraw
  · rw [e]
    exact fine.spendInputDraw
  · rw [e]
    exact fine

theorem noFailure_consoleRead (service : HeldRead) (fine : NoFailure s) :
    Meets NoFailure NoFailure (consoleRead service s) := by
  rcases consoleRead_cases service s with ⟨draw, _⟩ | ⟨b, _, _, e⟩ | ⟨_, _, e⟩
  · exact absurd draw (inputDraw_of_reliable fine.1)
  · rw [e]
    exact fine.spendInputDraw
  · rw [e]
    exact fine.spendInputDraw

theorem noFailure_consoleWrite (b : Byte) (fine : NoFailure s) : Meets NoFailure NoFailure (consoleWrite b s) := by
  rcases consoleWrite_cases b s with ⟨draw, _⟩ | ⟨_, e⟩
  · exact absurd draw (outputDraw_of_reliable fine.1)
  · rw [e]
    exact fine.spendOutputDraw

/-- No instruction raises IoFailure itself. -/
theorem not_raises_ioFailure : ¬ Raises s i .ioFailure := by
  cases i <;> simp [Raises]

theorem keeps_noFailure (i : Instr) (s : State) : Keeps i s NoFailure NoFailure where
  done _ fine := fine
  setReg _ _ _ _ fine := fine
  setcc _ _ _ fine := fine
  setPc _ _ _ fine := fine
  setCell _ _ _ _ _ fine := fine
  memRead a _ _ fine := noFailure_memRead a fine
  consoleRead service _ _ fine := noFailure_consoleRead service fine
  consoleWrite b _ _ fine := noFailure_consoleWrite b fine
  raise r t raised fine := by
    refine ⟨fine.1, ?_⟩
    rintro ⟨rfl⟩
    exact not_raises_ioFailure raised

/-- Settles O51: IoFailure needs a draw that fails, and the draws to come are among those that came. -/
theorem reliableHostNeverFails : Obligations.ReliableHostNeverFails := by
  intro s t reliable stepped
  obtain ⟨running, -⟩ := step_cases stepped
  have fine : NoFailure s := ⟨reliable, by simp [running]⟩
  exact step_keeps keeps_noFailure stepped (fun service _ => noFailure_consoleRead service fine)
    (fun _ => noFailure_memRead _ fine) fun _ _ fine => fine

end

end Sys2Proof.Proofs
end

section
/-! PROOF. The cycle (40_cycle.md): what a step does in each of its cases, that every instruction and every step of a
running machine answers a next state, and the cause of each halt (60_exceptions.md R230). -/

namespace Sys2Proof.Proofs

open Sys2Proof.Machine Sys2Proof.Machine.Laws

section
variable {s t u : State} {i : Instr} {w : Word}

/-! ### The cases of a step -/

theorem step_of_held {service : HeldRead} (running : s.run = .running) (held : s.hold = some service) :
    step s = .next (left (resumeRead service s)) := by
  simp [step, running, held, outcome_eq]

/-- A fetch that ends the step leaves what its MemRead left (R121). -/
theorem step_of_fetch_ended (fetching : s.Fetching) (ended : memRead s.pc.toNat s = .ended u) : step s = .next u := by
  obtain ⟨running, unheld⟩ := fetching
  simp [step, fetch, running, unheld, ended]

/-- A step after a plain fetch. -/
theorem step_of_plain (fetching : s.Fetching) (plain : s.pc.toNat ≠ kbsrAddr) :
    step s = exec (decode (s.cell s.pc.toNat)) (s.setPc (s.pc + 1)) :=
  step_eq_exec_of_fetched fetching (memRead_pc_plain plain)

/-! ### A next state, always -/

theorem meets_true {α : Type} (phase : Phase α) : Meets (fun _ => True) (fun _ => True) phase := by
  cases phase <;> trivial

theorem keeps_true (i : Instr) (s : State) : Keeps i s (fun _ => True) (fun _ => True) where
  done _ _ := trivial
  setReg _ _ _ _ _ := trivial
  setcc _ _ _ _ := trivial
  setPc _ _ _ _ := trivial
  setCell _ _ _ _ _ _ := trivial
  memRead _ _ _ _ := meets_true _
  consoleRead _ _ _ _ := meets_true _
  consoleWrite _ _ _ _ := meets_true _
  raise _ _ _ _ := trivial

theorem exec_answers (i : Instr) (s : State) : ∃ t, exec i s = .next t :=
  (exec_keeps (keeps_true i s) trivial).imp fun _ answer => answer.1

/-- Settles O38: every arm of `exec` answers a next state, and so does each case of a step that runs. -/
theorem everyInstructionAnswersANextState : Obligations.EveryInstructionAnswersANextState := by
  refine ⟨exec_answers, fun s running => ?_⟩
  cases held : s.hold with
  | some service => exact ⟨_, step_of_held running held⟩
  | none =>
    cases read : memRead s.pc.toNat s with
    | ended u => exact ⟨u, step_of_fetch_ended ⟨running, held⟩ read⟩
    | ok w u =>
      rw [step_eq_exec_of_fetched ⟨running, held⟩ read]
      exact exec_answers _ _

/-! ### The step on a decoded and on a rejected word -/

theorem exec_trapInvalid (code : Byte) (s : State) :
    exec (.trapInvalid code) s = .next (raise (.decodeFailure (fetchedWord s)) s) := rfl

/-- A rejected word is the word the reason records (R231). -/
theorem step_of_fetched_rejected (fetching : s.Fetching) (read : memRead s.pc.toNat s = .ok w u)
    (rejected : decodeWord w = .error .decodeFailure) :
    step s = .next (raise (.decodeFailure w) (u.setPc (u.pc + 1))) := by
  rw [step_eq_exec_of_fetched fetching read, decode_of_error rejected, exec_trapInvalid, fetchedWord_after_fetch read]

/-- Settles O35: a raise from the advanced pc, which changes the run state alone. -/
theorem rejectedWordRaisesDecodeFailure : Obligations.RejectedWordRaisesDecodeFailure := by
  refine ⟨fun code s => ⟨_, _, exec_trapInvalid code s, endedWith_raise _ s⟩, ?_⟩
  rintro s w fetching plain rfl rejected
  exact ⟨_, step_of_fetched_rejected fetching (memRead_pc_plain plain) rejected, endedWith_raise _ _⟩

/-- Settles O36: the cases of a fetch, and of the verdict on its word. -/
theorem stepRunsTheDecodedInstruction : Obligations.StepRunsTheDecodedInstruction := by
  intro s fetching
  refine ⟨fun plain i decoded => ?_, fun w u i read decoded => ?_, fun w u read rejected => ?_, fun u ended => ?_,
    fun w u read reserved => ?_, fun w u read halt => ?_, fun s' r t halted => step_ne_next_of_halted halted t⟩
  · rw [step_of_plain fetching plain, decode_of_ok decoded]
  · rw [step_eq_exec_of_fetched fetching read, decode_of_ok decoded]
  · exact step_of_fetched_rejected fetching read rejected
  · refine ⟨step_of_fetch_ended fetching ended, ?_⟩
    simpa [ended] using (readOnly_memRead s.pc.toNat s).pc
  · exact ⟨_, w, step_of_fetched_reserved fetching read (decode_of_ok reserved), rfl⟩
  · rw [step_eq_exec_of_fetched fetching read, decode_of_ok halt]
    exact ⟨_, exec_trapHalt _, rfl⟩

/-! ### The cause of a halt -/

/-- What each reason says about the instruction that ended with it, run from the state `s`. A console call may fail
under several instructions; its cause is a draw. -/
def CausedBy (i : Instr) (s : State) : Reason → Prop
  | .halt => i = .trapHalt
  | .decodeFailure x => x = fetchedWord s ∧ ∃ code, i = .trapInvalid code
  | .illegalInstruction x => x = fetchedWord s ∧ i = .reserved
  | .outOfBoundsAccess a => a = memWords ∧ (i = .trapPuts ∨ i = .trapPutsp)
  | .ioFailure => True

/-- A state that has halted has a cause in the instruction. -/
def HaltCaused (i : Instr) (s t : State) : Prop := ∀ r, t.run = .halted r → CausedBy i s r

theorem haltCaused_raise {r : Reason} (cause : CausedBy i s r) : HaltCaused i s (raise r t) := by
  rintro r' ⟨rfl⟩
  exact cause

theorem haltCaused_of_running (running : t.run = .running) : HaltCaused i s t :=
  fun _ halted => nomatch running.symm.trans halted

theorem causedBy_of_raises {r : Reason} (raised : Raises s i r) : CausedBy i s r := by
  cases i <;> simp_all [Raises, CausedBy]

theorem keeps_haltCaused (i : Instr) (s : State) : Keeps i s (·.run = .running) (HaltCaused i s) where
  done _ running := haltCaused_of_running running
  setReg _ _ _ _ running := running
  setcc _ _ _ running := running
  setPc _ _ _ running := running
  setCell _ _ _ _ _ running := running
  memRead a t reads running := by
    rcases memRead_cases a t with ⟨beyond, e⟩ | ⟨_, _, e⟩ | ⟨b, _, _, _, e⟩ | ⟨_, _, _, e⟩ | ⟨_, _, e⟩ <;> rw [e]
    · obtain ⟨top, string⟩ := reads.2.resolve_left (by omega)
      exact haltCaused_raise ⟨top, string⟩
    · exact haltCaused_raise trivial
    · exact (run_memRead_ok e).trans running
    · exact (run_memRead_ok e).trans running
    · exact running
  consoleRead service t _ running := by
    rcases consoleRead_cases service t with ⟨_, e⟩ | ⟨b, _, _, e⟩ | ⟨_, _, e⟩ <;> rw [e]
    · exact haltCaused_raise trivial
    · exact running
    · exact haltCaused_of_running running
  consoleWrite b t _ running := by
    rcases consoleWrite_cases b t with ⟨_, e⟩ | ⟨_, e⟩ <;> rw [e]
    · exact haltCaused_raise trivial
    · exact running
  raise _ _ raised _ := haltCaused_raise (causedBy_of_raises raised)

/-- The decoder itself never yields the instruction that carries its rejections. -/
theorem decodeWord_ne_trapInvalid (w : Word) (code : Byte) : decodeWord w ≠ .ok (.trapInvalid code) := by
  intro verdict
  unfold decodeWord decodeTrap at verdict
  repeat' split at verdict
  all_goals exact nomatch verdict

theorem rejected_of_decode_trapInvalid {code : Byte} (carried : decode w = .trapInvalid code) :
    decodeWord w = .error .decodeFailure := by
  cases verdict : decodeWord w with
  | error e => cases e; rfl
  | ok i =>
    obtain rfl : i = .trapInvalid code := (decode_of_ok verdict).symm.trans carried
    exact absurd verdict (decodeWord_ne_trapInvalid w code)

theorem cause_of_halted_getcRead {r : Reason} (running : s.run = .running)
    (halted : (left (getcRead s)).run = .halted r) : r = .ioFailure ∧ s.inputDraw = .fails := by
  rcases getcRead_cases s with ⟨draw, e⟩ | ⟨_, _, _, e⟩ | ⟨_, _, e⟩ <;> rw [e] at halted
  · cases halted
    exact ⟨rfl, draw⟩
  · exact nomatch running.symm.trans halted
  · exact nomatch running.symm.trans halted

theorem cause_of_halted_inRead {r : Reason} (running : s.run = .running)
    (halted : (left (inRead s)).run = .halted r) :
    r = .ioFailure ∧ (s.inputDraw = .fails ∨ s.params.inEcho = true ∧ s.outputDraw = .fails) := by
  rcases inRead_cases s with ⟨draw, e⟩ | ⟨_, _, _, _, e⟩ | ⟨_, _, _, _, _, e⟩ | ⟨_, _, _, echo, draw, e⟩ | ⟨_, _, e⟩ <;>
    rw [e] at halted
  · cases halted
    exact ⟨rfl, .inl draw⟩
  · exact nomatch running.symm.trans halted
  · exact nomatch running.symm.trans halted
  · cases halted
    exact ⟨rfl, .inr ⟨echo, draw⟩⟩
  · exact nomatch running.symm.trans halted

/-- A fetch never runs past the top, so only its poll can end it. -/
theorem cause_of_ended_fetch (ended : memRead s.pc.toNat s = .ended u) :
    u.run = .halted .ioFailure ∧ s.pc.toNat = kbsrAddr ∧ s.inputDraw = .fails := by
  have below := word_lt_memWords s.pc
  rcases memRead_cases s.pc.toNat s with ⟨beyond, _⟩ | ⟨poll, draw, e⟩ | ⟨_, _, _, _, e⟩ | ⟨_, _, _, e⟩ | ⟨_, _, e⟩
  · omega
  · cases e.symm.trans ended
    exact ⟨rfl, poll, draw⟩
  all_goals cases e.symm.trans ended

/-- A step that fails has a failing draw: without one the host is reliable. -/
theorem fails_of_step_ioFailure (stepped : step s = .next t) (failed : t.run = .halted .ioFailure) :
    .fails ∈ s.inputDraws ∨ .fails ∈ s.outputDraws := by
  by_contra! none
  obtain ⟨noInput, noOutput⟩ := none
  have reliable : s.HostReliable :=
    ⟨fun d draw bad => noInput (bad ▸ draw), fun d draw bad => noOutput (bad ▸ draw)⟩
  exact (reliableHostNeverFails s t reliable stepped).2 failed

/-- Settles O40: a held step and an ended fetch by what their primitive can answer; a fetched step by the reasons its
instruction's operations can raise. -/
theorem everyHaltHasItsCause : Obligations.EveryHaltHasItsCause := by
  intro s t r stepped halted
  obtain ⟨running, -⟩ := step_cases stepped
  refine ⟨fun held => ?_, fun held => ?_, fun u unheld ended => ?_, fun w u unheld read => ?_⟩
  · cases stepped.symm.trans (step_of_held running held)
    exact cause_of_halted_getcRead running halted
  · cases stepped.symm.trans (step_of_held running held)
    exact cause_of_halted_inRead running halted
  · cases stepped.symm.trans (step_of_fetch_ended ⟨running, unheld⟩ ended)
    obtain ⟨failed, poll⟩ := cause_of_ended_fetch ended
    cases halted.symm.trans failed
    exact ⟨rfl, poll⟩
  · have ran := (step_eq_exec_of_fetched ⟨running, unheld⟩ read).symm.trans stepped
    have started : (u.setPc (u.pc + 1)).run = .running := (run_memRead_ok read).trans running
    have cause := of_exec_next ran (exec_keeps (keeps_haltCaused (decode w) _) started) r halted
    refine ⟨?_, ?_, ?_, ?_, ?_⟩
    · rintro rfl
      exact cause
    · rintro x rfl
      obtain ⟨recorded, code, carried⟩ := cause
      exact ⟨recorded.trans (fetchedWord_after_fetch read), rejected_of_decode_trapInvalid carried⟩
    · rintro x rfl
      obtain ⟨recorded, reserved⟩ := cause
      exact ⟨recorded.trans (fetchedWord_after_fetch read), reserved⟩
    · rintro a rfl
      exact cause
    · rintro rfl
      exact fails_of_step_ioFailure stepped halted

end

end Sys2Proof.Proofs
end

section
/-! PROOF. Memory's canonical form and the image (20_memory.md sections 1 and 7), construction (10_state.md R38). -/

namespace Sys2Proof.Proofs

open Sys2Proof.Machine Sys2Proof.Machine.Laws

/-! ### The canonical form -/

section
variable {m m' : Memory}

/-- A canonical memory lists exactly the cells that hold another word than the unlisted one. -/
theorem mem_iff_read (wf : m.wf) (c : Nat × Word) : c ∈ m ↔ m.read c.1 = c.2 ∧ c.2 ≠ unlistedWord := by
  constructor
  · intro listed
    exact ⟨read_of_mem m c wf listed, (wf.2 c listed).2⟩
  · rintro ⟨reads, nonzero⟩
    have listed := mem_of_read m c.1 (reads ▸ nonzero)
    rwa [reads] at listed

theorem nodup_of_wf (wf : m.wf) : m.Nodup :=
  wf.1.imp fun {c d} lower same => by simp [same] at lower

/-- Settles O44: memories that read alike list the same cells, and both list them by rising address. -/
theorem canonicalMemoriesAreEqualByCells : Obligations.CanonicalMemoriesAreEqualByCells := by
  intro m m' wf wf' alike
  have perm : m.Perm m' := (List.perm_ext_iff_of_nodup (nodup_of_wf wf) (nodup_of_wf wf')).mpr fun c => by
    rw [mem_iff_read wf, mem_iff_read wf', alike]
  exact perm.eq_of_pairwise (fun c d _ _ below above => absurd (below.trans above) (lt_irrefl _)) wf.1 wf'.1

end

/-! ### Construction -/

/-- Settles O41: each field of a constructed machine is the table's value. -/
theorem constructionSetsEveryPieceOfState : Obligations.ConstructionSetsEveryPieceOfState :=
  fun _ => ⟨rfl, rfl, rfl, fun _ => rfl, fun _ => rfl, rfl⟩

theorem inv_construct (p : Params) : (State.construct p).Inv := inv_of_unheld wf_nil rfl

/-! ### The image -/

section
variable {bytes : List Byte} {s t : State}

/-- What a load changes: it stores words, and nothing else differs. -/
theorem loadImage_eq_some (loaded : loadImage bytes s = some t) :
    ∃ words addr, t = { s with mem := loadWords words addr s.mem } := by
  unfold loadImage at loaded
  split at loaded
  · next hi lo rest =>
    obtain ⟨words, -, rfl⟩ := Option.map_eq_some_iff.mp loaded
    exact ⟨words, _, rfl⟩
  · cases loaded

/-- Settles O42: construction lists no cell and holds no read; a load stores word by word. -/
theorem invariantHoldsAtLaunch : Obligations.InvariantHoldsAtLaunch := by
  refine ⟨inv_construct _, inv_construct, fun bytes s t inv loaded => ?_⟩
  obtain ⟨words, addr, rfl⟩ := loadImage_eq_some loaded
  exact ⟨wf_loadWords words addr s.mem inv.1, inv.2⟩

/-- R13: joinBytes is big-endian. -/
theorem toNat_joinBytes (hi lo : Byte) : (joinBytes hi lo).toNat = hi.toNat * 256 + lo.toNat := by
  rw [joinBytes, BitVec.toNat_append, ← Nat.shiftLeft_add_eq_or_of_lt lo.isLt, Nat.shiftLeft_eq]

theorem loadImage_pairs (hi lo : Byte) (words : List (Byte × Byte)) (s : State) :
    loadImage (hi :: lo :: words.flatMap fun w => [w.1, w.2]) s =
      some { s with mem := loadWords (words.map fun w => joinBytes w.1 w.2) (hi.toNat * 256 + lo.toNat) s.mem } := by
  rw [loadImage, imageWords_pairs, Option.map_some, toNat_joinBytes]

/-- Settles O52: each cell from the origin on holds the word placed there, and the rest of the state is kept. -/
theorem imageWordsFillConsecutiveCells : Obligations.ImageWordsFillConsecutiveCells := by
  intro hi lo words s origin
  refine ⟨_, loadImage_pairs hi lo words s, fun k w placed below => ?_, fun a outside => ?_,
    fun _ => rfl, rfl, rfl, ⟨rfl, rfl, rfl⟩, ⟨rfl, rfl, rfl⟩, rfl, rfl⟩
  · have inside : origin ≤ origin + k ∧ origin + k < memWords := ⟨Nat.le_add_right origin k, Nat.lt_succ_of_le below⟩
    rw [State.cell, read_loadWords, if_pos inside, Nat.add_sub_cancel_left, List.getElem?_map, placed, Option.map_some,
      Option.getD_some, toNat_joinBytes]
  · rw [State.cell, read_loadWords]
    split
    · next inside =>
      have past : (words.map fun w => joinBytes w.1 w.2)[a - origin]? = none := by
        rw [List.getElem?_eq_none_iff, List.length_map]
        have below : a < 65536 := inside.2
        omega
      rw [past, Option.getD_none, State.cell]
    · rfl

theorem imageWords_eq_none (odd : bytes.length % 2 = 1) : imageWords bytes = none := by
  rw [← Option.isNone_iff_eq_none, ← Option.not_isSome, imageWords_isSome]
  simp [odd]

theorem imageWords_eq_some (even : bytes.length % 2 = 0) : ∃ words, imageWords bytes = some words := by
  rw [← Option.isSome_iff_exists, imageWords_isSome]
  simp [even]

/-- Settles O53: no origin, a byte left over, or a launch from the constructed machine. -/
theorem malformedImagesAreRefused : Obligations.MalformedImagesAreRefused := by
  intro p bytes
  match bytes with
  | [] | [_] => exact ⟨fun _ => rfl, fun long => absurd long (by simp)⟩
  | hi :: lo :: rest =>
    refine ⟨fun malformed => ?_, fun _ even => ?_⟩
    · have odd : rest.length % 2 = 1 := by simp at malformed; omega
      rw [launch, loadImage, imageWords_eq_none odd]; rfl
    · obtain ⟨words, split⟩ := imageWords_eq_some (bytes := rest) (by simp at even; omega)
      exact ⟨_, by rw [launch, loadImage, split]; rfl, rfl, rfl⟩

end

end Sys2Proof.Proofs
end

section
/-! PROOF. The subtraction idiom, BR's no-ops, JSRR (41_alu.md section 3, 42_control.md sections 1 and 3). -/

namespace Sys2Proof.Proofs

open Sys2Proof.Machine Sys2Proof.Machine.Laws

/-- The second step of the idiom makes the complement the negative. -/
theorem add_not_add_one (x y : Word) : x + (~~~ y + 1) = x - y := by
  rw [BitVec.sub_eq_add_neg, BitVec.neg_eq_not_add]
  rfl

/-- Settles O12: the scratch register holds the complement, then the negative; the minuend is not the scratch
register, so it is still there to be added. -/
theorem subtractionIdiomComputesDifference : Obligations.SubtractionIdiomComputesDifference := by
  intro d a b t s scratch
  obtain ⟨complement, -, same1, -⟩ := resultIn_writeResult t (~~~ s.reg b) s
  have ran2 := exec_addImm t t 1 (writeResult t (~~~ s.reg b) s)
  rw [complement] at ran2
  obtain ⟨negative, -, same2, -⟩ := resultIn_writeResult t (~~~ s.reg b + 1) (writeResult t (~~~ s.reg b) s)
  have ran3 := exec_addReg d a t (writeResult t (~~~ s.reg b + 1) (writeResult t (~~~ s.reg b) s))
  rw [negative, same2 a scratch.symm, same1 a scratch.symm, add_not_add_one] at ran3
  obtain ⟨difference, flags, -⟩ := resultIn_writeResult d (s.reg a - s.reg b) _
  exact ⟨_, _, _, exec_not t b s, ran2, ran3, difference, flags⟩

/-! ### BR -/

/-- R161, R162: no bit meets no condition, and Unset meets no bit. -/
theorem branchTaken_eq_false {n z p : Bool} {c : Cond} (none : (n = false ∧ z = false ∧ p = false) ∨ c = .unset) :
    branchTaken n z p c = false := by
  rcases none with ⟨rfl, rfl, rfl⟩ | rfl
  · rfl
  · simp [branchTaken]

/-- R28: the branch test is the intersection of BR's bits with the condition's mask. -/
theorem branchTaken_iff_mask (n z p : Bool) (c : Cond) : branchTaken n z p c = true ↔
    (BitVec.ofBool n ++ BitVec.ofBool z ++ BitVec.ofBool p : BitVec 3) &&& c.mask ≠ 0 := by
  revert n z p
  cases c <;> decide

/-- Settles O14: an untaken BR sets pc to where it already is. -/
theorem branchWithoutBitsOrFlagsIsNoOp : Obligations.BranchWithoutBitsOrFlagsIsNoOp := by
  refine fun n z p offset s => ⟨fun none => ?_, branchTaken_iff_mask n z p s.cond⟩
  rw [exec_br, branchTaken_eq_false none]
  rfl

/-! ### JSRR -/

/-- R167: the register JSRR jumps through, read after the link or before it. -/
theorem exec_jsrr (baseR : Reg) (s : State) : exec (.jsrr baseR) s =
    .next (s.link.setPc (if s.params.jsrrLinkFirst then s.link.reg baseR else s.reg baseR)) :=
  congrArg Host.Outcome.next (apply_ite s.link.setPc _ _ _).symm

/-- Settles O16: the link changes R7 alone, so the order of the two matters for a base of R7 only. -/
theorem jsrrLinksAndJumpsThroughBase : Obligations.JsrrLinksAndJumpsThroughBase := by
  intro baseR s
  refine ⟨_, exec_jsrr baseR s, reg_link s, fun other => ?_, ?_, ?_, frame_link_setPc _ s⟩
  · have kept : s.link.reg baseR = s.reg baseR := reg_setReg_ne baseR linkReg s.pc s other
    rw [setPc_pc, kept, ite_self]
  · rintro rfl first
    rw [setPc_pc, if_pos first]
    exact reg_link s
  · rintro rfl last
    rw [setPc_pc, last]
    rfl

end Sys2Proof.Proofs
end

section
/-! PROOF. Loads, stores and the keyboard poll (43_load_store.md, 20_memory.md R55). An access is stated once for the
address it uses; the instructions differ in how they get that address. -/

namespace Sys2Proof.Proofs

open Sys2Proof.Machine Sys2Proof.Machine.Laws

/-- R187: the base + offset address wraps. -/
theorem toNat_baseOffset (baseR : Reg) (offset : Word) (s : State) :
    (baseOffset baseR offset s).toNat = ((s.reg baseR).toNat + offset.toNat) % 65536 :=
  BitVec.toNat_add (s.reg baseR) offset

/-- An input primitive that fails spends its draw and ends the step (R234). -/
theorem inputFailed_raise (s : State) : InputFailed s (raise .ioFailure s.spendInputDraw) :=
  ⟨rfl, fun _ => rfl, rfl, rfl, fun _ => rfl, rfl, rfl, rfl, rfl, rfl, rfl⟩

section
variable {s : State} {i : Instr} {a : Word}

/-! ### Loads -/

theorem loadFrom_plain (dr : Reg) (plain : a.toNat ≠ kbsrAddr) :
    loadFrom dr a s = .ok () (writeResult dr (s.cell a.toNat) s) := by
  rw [loadFrom, memRead_plain a.toNat s a.isLt plain, andThen_ok]

/-- A load of one cell, whatever instruction ends in it. -/
theorem loadsCell_of_loadFrom {dr : Reg} (ran : exec i s = (loadFrom dr a s).outcome) : LoadsCell i dr a.toNat s := by
  refine ⟨fun plain => ?_, fun poll draw => ?_, fun poll draw => ?_⟩
  · rw [ran, loadFrom_plain dr plain]
    exact ⟨_, rfl, resultIn_writeResult dr _ s⟩
  · obtain ⟨v, u, read, status⟩ := memRead_kbsr s draw
    replace poll : a.toNat = kbsrAddr := poll
    refine ⟨v, u, _, read, status, ?_, resultIn_writeResult dr v u⟩
    rw [ran, loadFrom, poll, read, andThen_ok, outcome_ok]
  · replace poll : a.toNat = kbsrAddr := poll
    refine ⟨_, ?_, inputFailed_raise s⟩
    rw [ran, loadFrom, poll, memRead_kbsr_fails s draw, andThen_ended, outcome_ended]

/-- Settles O17: both are the load of one cell, at a wrapped address. -/
theorem loadsReadTheAddressedCell : Obligations.LoadsReadTheAddressedCell := fun _ offset s =>
  ⟨toNat_pcRelative offset s, loadsCell_of_loadFrom rfl,
    fun baseR => ⟨toNat_baseOffset baseR offset s, loadsCell_of_loadFrom rfl⟩⟩

/-! ### The pointer cell -/

variable {offset : Word}

theorem indirect_plain (plain : (pcRelative offset s).toNat ≠ kbsrAddr) :
    indirect offset s = .ok (s.cell (pcRelative offset s).toNat) s :=
  memRead_plain _ s (pcRelative offset s).isLt plain

/-- A pointer cell at 0xFE00 polls, and its status value is no address that polls again. -/
theorem indirect_poll (poll : (pcRelative offset s).toNat = kbsrAddr) (draw : s.inputDraw ≠ .fails) :
    ∃ v u, memRead kbsrAddr s = .ok v u ∧ (v = 0x8000 ∨ v = 0x0000) ∧ indirect offset s = .ok v u ∧
      v.toNat ≠ kbsrAddr := by
  obtain ⟨v, u, read, status⟩ := memRead_kbsr s draw
  refine ⟨v, u, read, status, by rw [indirect, poll, read], ?_⟩
  rcases status with rfl | rfl <;> decide

theorem indirect_fails (poll : (pcRelative offset s).toNat = kbsrAddr) (draw : s.inputDraw = .fails) :
    indirect offset s = .ended (raise .ioFailure s.spendInputDraw) := by
  rw [indirect, poll, memRead_kbsr_fails s draw]

theorem exec_ldi (dr : Reg) (offset : Word) (s : State) : exec (.ldi dr offset) s =
    ((indirect offset s).andThen fun addr s => loadFrom dr addr s).outcome := rfl

/-- Settles O18: LDI is the load of the cell its pointer cell names; the status value of a polled pointer cell names a
plain one. -/
theorem ldiLoadsThroughItsPointerCell : Obligations.LdiLoadsThroughItsPointerCell := by
  refine fun dr offset s => ⟨toNat_pcRelative offset s, fun plain => ?_, fun poll draw => ?_, fun poll draw => ?_⟩
  · exact loadsCell_of_loadFrom (by rw [exec_ldi, indirect_plain plain, andThen_ok])
  · obtain ⟨v, u, read, status, pointer, plain⟩ := indirect_poll poll draw
    refine ⟨v, u, _, read, status, ?_, resultIn_writeResult dr _ u⟩
    rw [exec_ldi, pointer, andThen_ok, loadFrom_plain dr plain, outcome_ok]
  · exact ⟨_, by rw [exec_ldi, indirect_fails poll draw, andThen_ended, outcome_ended], inputFailed_raise s⟩

/-! ### Stores -/

theorem storedAt_setCell (ea : Nat) (v : Word) (s : State) : StoredAt ea v s (s.setCell ea v) :=
  ⟨cell_setCell_same ea v s, fun k other => cell_setCell_ne ea k v s other, fun _ => rfl, rfl, rfl, ⟨rfl, rfl, rfl⟩,
    ⟨rfl, rfl, rfl⟩, rfl, rfl⟩

/-- A 16-bit address is within the bound, so a store is one write of a cell. -/
theorem storeTo_eq (sr : Reg) (a : Word) (s : State) : storeTo sr a s = .ok () (s.setCell a.toNat (s.reg sr)) :=
  memWrite_word a (s.reg sr) s

theorem exec_st (sr : Reg) (offset : Word) (s : State) : exec (.st sr offset) s =
    .next (s.setCell (pcRelative offset s).toNat (s.reg sr)) :=
  congrArg Phase.outcome (storeTo_eq sr _ s)

theorem exec_str (sr baseR : Reg) (offset : Word) (s : State) : exec (.str sr baseR offset) s =
    .next (s.setCell (baseOffset baseR offset s).toNat (s.reg sr)) :=
  congrArg Phase.outcome (storeTo_eq sr _ s)

theorem exec_sti (sr : Reg) (offset : Word) (s : State) : exec (.sti sr offset) s =
    ((indirect offset s).andThen fun addr s => storeTo sr addr s).outcome := rfl

/-- Settles O20: both write one cell, at a wrapped address. -/
theorem storesWriteOneCell : Obligations.StoresWriteOneCell := fun sr offset s =>
  ⟨⟨toNat_pcRelative offset s, _, exec_st sr offset s, storedAt_setCell _ _ s⟩,
    fun baseR => ⟨toNat_baseOffset baseR offset s, _, exec_str sr baseR offset s, storedAt_setCell _ _ s⟩⟩

/-- A poll keeps every register, so STI stores the register as it was. -/
theorem reg_of_memRead_ok {addr : Nat} {v : Word} {u : State} (read : memRead addr s = .ok v u) (q : Reg) :
    u.reg q = s.reg q := by
  have same := (readOnly_memRead addr s).regs
  rw [read] at same
  exact reg_of_regs same

/-- Settles O21: STI writes the cell its pointer cell names, polled or not. -/
theorem stiStoresThroughItsPointerCell : Obligations.StiStoresThroughItsPointerCell := by
  refine fun sr offset s => ⟨toNat_pcRelative offset s, fun plain => ?_, fun poll draw => ?_, fun poll draw => ?_⟩
  · refine ⟨_, ?_, storedAt_setCell _ _ s⟩
    rw [exec_sti, indirect_plain plain, andThen_ok, storeTo_eq, outcome_ok]
  · obtain ⟨v, u, read, status, pointer, -⟩ := indirect_poll poll draw
    refine ⟨v, u, _, read, status, ?_, storedAt_setCell _ _ u⟩
    rw [exec_sti, pointer, andThen_ok, storeTo_eq, outcome_ok, reg_of_memRead_ok read]
  · exact ⟨_, by rw [exec_sti, indirect_fails poll draw, andThen_ended, outcome_ended], inputFailed_raise s⟩

/-! ### The keyboard poll -/

/-- The two cells after a poll that found `b` (R55), whether it takes the byte or not. -/
def showByte (b : Byte) (s : State) : State := (s.spendInputDraw.setCell kbsrAddr 0x8000).setCell kbdrAddr (zext16 b)

theorem polledByte_eq (b : Byte) (s : State) :
    polledByte b s = if s.params.kbdPollConsumes then (showByte b s).takeByte else showByte b s := rfl

theorem cell_polledByte_kbdr (b : Byte) (s : State) : (polledByte b s).cell kbdrAddr = zext16 b := by
  rw [polledByte_eq]
  split <;> exact cell_setCell_same kbdrAddr (zext16 b) _

theorem toNat_zext16 (b : Byte) : (zext16 b).toNat = b.toNat :=
  BitVec.toNat_setWidth_of_le (by decide)

theorem keyboardPoll_of_available {b : Byte} (there : s.available = some b) :
    keyboardPoll s = .ok () (polledByte b s) := by
  rcases keyboardPoll_cases s with ⟨draw, -⟩ | ⟨b', -, there', e⟩ | ⟨-, none, -⟩
  · rw [available_of_fails s draw] at there
    cases there
  · cases there.symm.trans there'
    exact e
  · cases there.symm.trans none

theorem keyboardPoll_of_none (none : s.available = none) (draw : s.inputDraw ≠ .fails) :
    keyboardPoll s = .ok () (polledNothing s) := by
  rcases keyboardPoll_cases s with ⟨fails, -⟩ | ⟨b, -, there, -⟩ | ⟨-, -, e⟩
  · exact absurd fails draw
  · cases there.symm.trans none
  · exact e

theorem keyboardPoll_of_fails (draw : s.inputDraw = .fails) :
    keyboardPoll s = .ended (raise .ioFailure s.spendInputDraw) := by
  rcases keyboardPoll_cases s with ⟨-, e⟩ | ⟨b, ready, -, -⟩ | ⟨sound, -, -⟩
  · exact e
  · cases draw.symm.trans ready
  · exact absurd draw sound

/-- A poll that takes its byte moves it from the stream to the taken bytes; one that only shows it moves nothing. -/
theorem stream_polledByte {b : Byte} (there : s.available = some b) :
    (s.params.kbdPollConsumes = true →
      (polledByte b s).input = s.input.tail ∧ (polledByte b s).taken = s.taken ++ [b]) ∧
    (s.params.kbdPollConsumes = false → (polledByte b s).input = s.input ∧ (polledByte b s).taken = s.taken) := by
  obtain ⟨-, rest, stream⟩ := available_eq_some s b there
  refine ⟨fun consumes => ?_, fun shows => ?_⟩
  · rw [polledByte_eq, if_pos consumes]
    refine ⟨rfl, ?_⟩
    change s.taken ++ s.input.take 1 = s.taken ++ [b]
    rw [stream]
    rfl
  · rw [polledByte_eq, shows]
    exact ⟨rfl, rfl⟩

/-- Settles O23: the three answers of the poll. -/
theorem keyboardPollUpdatesItsTwoCells : Obligations.KeyboardPollUpdatesItsTwoCells := by
  refine fun s => ⟨fun b there => ?_, fun none draw => ?_, fun draw => ?_⟩
  · have polled := keyboardPoll_of_available there
    obtain ⟨takes, shows⟩ := stream_polledByte there
    have frame := readOnly_polledByte b s
    have data : ((polledByte b s).cell kbdrAddr).toNat = b.toNat := by rw [cell_polledByte_kbdr, toNat_zext16]
    obtain ⟨draws, run⟩ : (polledByte b s).inputDraws = s.inputDraws.tail ∧ (polledByte b s).run = s.run := by
      rw [polledByte_eq]
      split <;> exact ⟨rfl, rfl⟩
    exact ⟨_, polled, cell_polledByte_kbsr b s, data, frame.cells, takes, shows, draws,
      fun _ => reg_of_regs frame.regs, frame.cond, frame.pc, ⟨run, frame.hold, frame.params⟩, frame.output,
      frame.outputDraws⟩
  · exact ⟨_, keyboardPoll_of_none none draw, cell_polledNothing_kbsr s,
      fun k other => cell_setCell_ne kbsrAddr k 0x0000 s.spendInputDraw other, rfl, rfl, rfl, fun _ => rfl, rfl, rfl,
      ⟨rfl, rfl, rfl⟩, rfl, rfl⟩
  · exact ⟨_, keyboardPoll_of_fails draw, inputFailed_raise s⟩

end

end Sys2Proof.Proofs
end

section
/-! PROOF. GETC and IN (44_trap_system.md R202, R205; 40_cycle.md R129): what each read answers, said once for the read
of a fresh service and the read of a held one; then what stands before the read in each. -/

namespace Sys2Proof.Proofs

open Sys2Proof.Machine Sys2Proof.Machine.Laws

/-- Settles O24: the link writes R7 first, and no service touches it or pc again. -/
theorem trapServicesSaveTheAdvancedPc : Obligations.TrapServicesSaveTheAdvancedPc := by
  intro i service s
  obtain ⟨t, ran, kept⟩ := exec_trapService service s
  exact ⟨t, ran, kept.link.trans (reg_link s), kept.pc⟩

section
variable {s t u : State} {b : Byte} {rest text : List Byte} {service : HeldRead}

theorem outcome_of_ok {phase : Phase Unit} (done : phase = .ok () t) : phase.outcome = .next t := by
  rw [done, outcome_ok]

theorem outcome_of_ended {phase : Phase Unit} (ended : phase = .ended t) : phase.outcome = .next t := by
  rw [ended, outcome_ended]

/-! ### Bytes the sink accepts -/

theorem emitAll_nil (s : State) : emitAll [] s = s := by simp [emitAll]

theorem emitAll_singleton (b : Byte) (s : State) : emitAll [b] s = s.spendOutputDraw.emit b := by
  simp [emitAll, State.spendOutputDraw, State.emit]

/-- The sink accepts a text and then another if it accepts both in one. -/
theorem sinkAccepts_add {m n : Nat} : SinkAccepts s (m + n) ↔
    SinkAccepts s m ∧ ∀ d ∈ (s.outputDraws.drop m).take n, d = .accepts := by
  simp only [SinkAccepts, List.take_add, List.mem_append, or_imp, forall_and]

theorem sinkAccepts_one : SinkAccepts s 1 ↔ s.outputDraw = .accepts := by
  unfold State.outputDraw SinkAccepts
  cases s.outputDraws <;> simp

theorem consoleWrite_of_accepts (b : Byte) (accepts : s.outputDraw = .accepts) :
    consoleWrite b s = .ok () (emitAll [b] s) := by
  rw [consoleWrite, accepts, emitAll_singleton]

theorem consoleWrite_of_fails (b : Byte) (fails : s.outputDraw = .fails) :
    consoleWrite b s = .ended (raise .ioFailure s.spendOutputDraw) := by
  rw [consoleWrite, fails]

/-! ### The read -/

/-- The state after a blocking read took its byte, with nothing held. -/
def readByte (s : State) : State := s.spendInputDraw.takeByte.setHold none

/-- The state after a service read `b`, echoed `echo` and wrote R0 and the flags. -/
def served (b : Byte) (echo : List Byte) (s : State) : State := acceptByte b (emitAll echo (readByte s))

theorem available_of_ready (ready : s.inputDraw = .ready) (stream : s.input = b :: rest) : s.available = some b := by
  simp [State.available, ready, stream]

theorem consoleRead_of_byte (service : HeldRead) (ready : s.inputDraw = .ready) (stream : s.input = b :: rest) :
    consoleRead service s = .ok b (readByte s) := by
  have there := available_of_ready ready stream
  rcases consoleRead_cases service s with ⟨draw, -⟩ | ⟨b', -, there', e⟩ | ⟨-, none, -⟩
  · cases draw.symm.trans ready
  · cases there.symm.trans there'
    exact e
  · cases there.symm.trans none

theorem consoleRead_of_fails (service : HeldRead) (fails : s.inputDraw = .fails) :
    consoleRead service s = .ended (raise .ioFailure (s.spendInputDraw.setHold none)) := by
  rcases consoleRead_cases service s with ⟨-, e⟩ | ⟨_, ready, -, -⟩ | ⟨sound, -, -⟩
  · exact e
  · cases fails.symm.trans ready
  · exact absurd fails sound

theorem consoleRead_of_none (service : HeldRead) (none : s.available = none) (sound : s.inputDraw ≠ .fails) :
    consoleRead service s = .ended (s.spendInputDraw.setHold (some service)) := by
  rcases consoleRead_cases service s with ⟨fails, -⟩ | ⟨_, -, there, -⟩ | ⟨-, -, e⟩
  · exact absurd fails sound
  · cases there.symm.trans none
  · exact e

/-- A read that ends its step ends the service. -/
theorem resumeRead_of_ended (ended : consoleRead service s = .ended t) : resumeRead service s = .ended t := by
  cases service <;> simp [resumeRead, getcRead, inRead, ended]

/-- What the service writes back of its byte: IN's echo, with IN_ECHO (R205). -/
def echoOf (service : HeldRead) (p : Params) (b : Byte) : List Byte :=
  if service = .inService ∧ p.inEcho = true then [b] else []

theorem echoOf_getc (p : Params) (b : Byte) : echoOf .getc p b = [] := if_neg (by simp)

/-- A byte, its echo accepted, then R0 and the flags. -/
theorem resumeRead_of_byte (ready : s.inputDraw = .ready) (stream : s.input = b :: rest)
    (accepts : SinkAccepts s (echoOf service s.params b).length) :
    resumeRead service s = .ok () (served b (echoOf service s.params b) s) := by
  have read := consoleRead_of_byte service ready stream
  cases service with
  | getc => rw [resumeRead, getcRead, read, andThen_ok, served, echoOf_getc, emitAll_nil]
  | inService =>
    rw [resumeRead, inRead, read, andThen_ok, show (readByte s).params = s.params from rfl]
    cases echo : s.params.inEcho with
    | false =>
      have silent : echoOf .inService s.params b = [] := if_neg (by simp [echo])
      rw [served, silent, emitAll_nil]
      rfl
    | true =>
      have echoed : echoOf .inService s.params b = [b] := if_pos ⟨rfl, echo⟩
      rw [echoed] at accepts ⊢
      have accepts' : (readByte s).outputDraw = .accepts := sinkAccepts_one.mp accepts
      rw [if_pos rfl, consoleWrite_of_accepts b accepts', andThen_ok, served]

/-- The echo that fails: the byte is taken, R0 and the flags are not yet written. -/
theorem resumeRead_of_failing_echo (ready : s.inputDraw = .ready) (stream : s.input = b :: rest)
    (echo : s.params.inEcho = true) (fails : s.outputDraw = .fails) :
    resumeRead .inService s = .ended (raise .ioFailure (readByte s).spendOutputDraw) := by
  have fails' : (readByte s).outputDraw = .fails := fails
  rw [resumeRead, inRead, consoleRead_of_byte .inService ready stream, andThen_ok,
    show (readByte s).params = s.params from rfl, if_pos echo, consoleWrite_of_fails b fails', andThen_ended]

/-! ### What the read leaves -/

/-- `u` is `s` after the writes that come before a read: the link and what the sink has accepted. -/
structure BeforeRead (s u : State) : Prop where
  regs : SameRegsBut 7 s u
  pc : u.pc = s.pc
  cond : u.cond = s.cond
  cells : SameCells s u
  run : u.run = s.run
  params : u.params = s.params
  input : u.input = s.input
  inputDraws : u.inputDraws = s.inputDraws
  taken : u.taken = s.taken

theorem beforeRead_refl (s : State) : BeforeRead s s :=
  ⟨fun _ _ => rfl, rfl, rfl, fun _ => rfl, rfl, rfl, rfl, rfl, rfl⟩

/-- A fresh service has linked and written its prompt. -/
theorem beforeRead_emitAll_link (text : List Byte) (s : State) : BeforeRead s (emitAll text s.link) :=
  ⟨fun q other => reg_setReg_ne q linkReg s.pc s other, rfl, rfl, fun _ => rfl, rfl, rfl, rfl, rfl, rfl⟩

/-- A byte is no negative number (R202). -/
theorem condOf_zext16_ne_negative (b : Byte) : condOf (zext16 b) ≠ .negative := by
  have small : 2 * (zext16 b).toNat < 2 ^ 16 := by
    have := b.isLt
    rw [toNat_zext16]
    omega
  have positive : ¬ (zext16 b).toInt < 0 := by
    rw [BitVec.toInt_eq_toNat_of_lt small]
    omega
  rw [condOf_eq, if_neg positive]
  split <;> simp

theorem taken_append_take (stream : s.input = b :: rest) : s.taken ++ s.input.take 1 = s.taken ++ [b] := by
  rw [stream]
  rfl

theorem byteTaken_served (before : BeforeRead s u) (stream : s.input = b :: rest) (echo : List Byte) :
    ByteTaken b s (served b echo u) := by
  have written : (served b echo u).reg 0 = zext16 b := reg_setReg_same 0 (zext16 b) _
  have taken : (served b echo u).taken = s.taken ++ [b] := by
    rw [← taken_append_take stream, ← before.taken, ← before.input]
    rfl
  exact ⟨by rw [written, toNat_zext16], written ▸ classifies_condOf (zext16 b), condOf_zext16_ne_negative b,
    congrArg List.tail before.input, taken, congrArg List.tail before.inputDraws,
    fun q other other' => (reg_setReg_ne q 0 (zext16 b) _ other).trans (before.regs q other'), before.pc, before.cells,
    before.run, rfl, before.params⟩

theorem reg7_served (b : Byte) (echo : List Byte) (u : State) : (served b echo u).reg 7 = u.reg 7 :=
  reg_setReg_ne 7 0 (zext16 b) _ (by decide)

theorem output_served (b : Byte) (echo : List Byte) (u : State) : (served b echo u).output = u.output ++ echo := rfl

theorem outputDraws_served (b : Byte) (echo : List Byte) (u : State) :
    (served b echo u).outputDraws = u.outputDraws.drop echo.length := rfl

/-- A read that fails spends its draw and holds nothing. -/
theorem inputFailed_read (s : State) : InputFailed s (raise .ioFailure (s.spendInputDraw.setHold none)) :=
  ⟨rfl, fun _ => rfl, rfl, rfl, fun _ => rfl, rfl, rfl, rfl, rfl, rfl, rfl⟩

/-- A read with no byte spends its draw and holds the step. -/
theorem heldIn_hold (service : HeldRead) (s : State) :
    HeldIn service s (s.spendInputDraw.setHold (some service)) :=
  ⟨rfl, fun _ => rfl, rfl, rfl, rfl, fun _ => rfl, rfl, rfl, rfl, rfl⟩

/-! ### What comes before the read -/

theorem exec_trapGetc (s : State) : exec .trapGetc s = (resumeRead .getc s.link).outcome := rfl

theorem exec_trapIn (s : State) : exec .trapIn s =
    ((consoleWriteAll s.params.inPrompt s.link).andThen fun _ s => resumeRead .inService s).outcome := rfl

/-- IN whose prompt the sink accepts. -/
theorem exec_trapIn_of_prompt (accepts : SinkAccepts s s.params.inPrompt.length) :
    exec .trapIn s = (resumeRead .inService (emitAll s.params.inPrompt s.link)).outcome := by
  rw [exec_trapIn, consoleWriteAll_accepts s.params.inPrompt s.link accepts, andThen_ok]

/-- Settles O25: the link, then the read of a byte or its failure. -/
theorem getcTakesOneByte : Obligations.GetcTakesOneByte := by
  refine fun s => ⟨fun b rest ready stream => ?_, fun fails => ?_⟩
  · have read : resumeRead .getc s.link = .ok () (served b [] s.link) :=
      resumeRead_of_byte ready stream (by simp [SinkAccepts, echoOf_getc])
    have before : BeforeRead s s.link := emitAll_nil s.link ▸ beforeRead_emitAll_link [] s
    refine ⟨_, (exec_trapGetc s).trans (outcome_of_ok read), byteTaken_served before stream [], ?_, ?_, rfl⟩
    · exact (reg7_served b [] s.link).trans (reg_link s)
    · rw [output_served, List.append_nil]
      rfl
  · have read := resumeRead_of_ended (consoleRead_of_fails (s := s.link) .getc fails)
    exact ⟨_, (exec_trapGetc s).trans (outcome_of_ended read), inputFailed_read s.link⟩

/-- Settles O26: the prompt, then the read of a byte and its echo. -/
theorem inPromptsReadsAndEchoes : Obligations.InPromptsReadsAndEchoes := by
  intro s b rest ready stream text accepts
  have echo : (if s.params.inEcho then [b] else []) = echoOf .inService s.params b := by simp [echoOf]
  simp only [text, echo] at accepts ⊢
  rw [List.length_append, sinkAccepts_add] at accepts
  obtain ⟨acceptsPrompt, acceptsEcho⟩ := accepts
  have read := resumeRead_of_byte (s := emitAll s.params.inPrompt s.link) ready stream acceptsEcho
  refine ⟨_, (exec_trapIn_of_prompt acceptsPrompt).trans (outcome_of_ok read),
    byteTaken_served (beforeRead_emitAll_link _ s) stream _, ?_, ?_, ?_⟩
  · exact (reg7_served b _ _).trans (reg_link s)
  · rw [output_served]
    exact List.append_assoc _ _ _
  · rw [outputDraws_served, List.length_append]
    exact List.drop_drop

/-- What IN has written when its console fails: R7 and `text`. -/
theorem inFailed_raise (regs : u.regs = s.link.regs) (pc : u.pc = s.pc) (cond : u.cond = s.cond) (mem : u.mem = s.mem)
    (params : u.params = s.params) (output : u.output = s.output ++ text) :
    InFailed text s (raise .ioFailure u) :=
  ⟨rfl, output, (reg_of_regs regs).trans (reg_link s),
    fun q other => (reg_of_regs regs).trans (reg_setReg_ne q linkReg s.pc s other), cond, pc, fun _ => cell_of_mem mem,
    params⟩

theorem outputDraw_of_getElem? {k : Nat} (draw : s.outputDraws[k]? = some .fails) (text : List Byte)
    (length : text.length = k) : (emitAll text s.link).outputDraw = .fails := by
  change (s.outputDraws.drop text.length).headD .accepts = .fails
  rw [length, List.headD_eq_head?_getD, List.head?_drop, draw, Option.getD_some]

/-- Settles O55: the prompt fails, or it is accepted and the read fails, or the read takes its byte and the echo
fails. -/
theorem inKeepsWhatPrecedesItsFailure : Obligations.InKeepsWhatPrecedesItsFailure := by
  refine fun s => ⟨fun k inside accepts fails => ?_, fun accepts fails => ?_,
    fun b rest accepts ready stream echo fails => ?_⟩
  · have length : (s.params.inPrompt.take k).length = k := List.length_take_of_le inside.le
    have ran := exec_trapIn s
    rw [consoleWriteAll_fails s.params.inPrompt k s.link inside accepts fails, andThen_ended, outcome_ended] at ran
    refine ⟨_, ran, inFailed_raise rfl rfl rfl rfl rfl rfl,
      ⟨rfl, rfl, rfl⟩, rfl, ?_⟩
    change (s.outputDraws.drop (s.params.inPrompt.take k).length).tail = _
    rw [length, List.tail_drop]
  · have read := resumeRead_of_ended (consoleRead_of_fails (s := emitAll s.params.inPrompt s.link) .inService fails)
    exact ⟨_, (exec_trapIn_of_prompt accepts).trans (outcome_of_ended read), inFailed_raise rfl rfl rfl rfl rfl rfl,
      rfl, rfl, rfl, rfl, rfl⟩
  · have read := resumeRead_of_failing_echo (s := emitAll s.params.inPrompt s.link) ready stream echo
      (outputDraw_of_getElem? fails _ rfl)
    refine ⟨_, (exec_trapIn_of_prompt accepts).trans (outcome_of_ended read), inFailed_raise rfl rfl rfl rfl rfl rfl,
      congrArg List.tail stream, taken_append_take stream, rfl, rfl, ?_⟩
    exact List.tail_drop

theorem resumeRead_of_none (none : s.available = none) (sound : s.inputDraw ≠ .fails) (service : HeldRead) :
    resumeRead service s = .ended (s.spendInputDraw.setHold (some service)) :=
  resumeRead_of_ended (consoleRead_of_none service none sound)

theorem step_eq_resumeRead_of_held (running : s.run = .running) (held : s.hold = some service) :
    step s = (resumeRead service s).outcome :=
  (step_of_held running held).trans (outcome_eq _).symm

/-- Settles O27: a held step is the read tried again, so it answers what a fresh read does. -/
theorem heldReadWaitsForItsByte : Obligations.HeldReadWaitsForItsByte := by
  refine ⟨fun s none sound => ⟨?_, fun accepts => ?_, fun service running held => ?_⟩, fun s service running held =>
    ⟨fun b rest ready stream accepts => ?_, fun fails => ?_, ?_⟩⟩
  · have read := resumeRead_of_none (s := s.link) none sound .getc
    exact ⟨_, (exec_trapGetc s).trans (outcome_of_ended read), heldIn_hold .getc s.link, rfl, rfl⟩
  · have read := resumeRead_of_none (s := emitAll s.params.inPrompt s.link) none sound .inService
    exact ⟨_, (exec_trapIn_of_prompt accepts).trans (outcome_of_ended read), heldIn_hold .inService s.link, rfl⟩
  · have read := resumeRead_of_none none sound service
    exact ⟨_, (step_eq_resumeRead_of_held running held).trans (outcome_of_ended read), heldIn_hold service s, rfl, rfl⟩
  · have acceptsEcho : SinkAccepts s (echoOf service s.params b).length := by
      unfold echoOf
      split
      · next echo => exact sinkAccepts_one.mpr (accepts echo.1 echo.2)
      · simp [SinkAccepts]
    have read := resumeRead_of_byte ready stream acceptsEcho
    exact ⟨_, (step_eq_resumeRead_of_held running held).trans (outcome_of_ok read),
      byteTaken_served (beforeRead_refl s) stream _, reg7_served b _ s, rfl⟩
  · have read := resumeRead_of_ended (consoleRead_of_fails service fails)
    exact ⟨_, (step_eq_resumeRead_of_held running held).trans (outcome_of_ended read), inputFailed_read s, rfl⟩
  · rintro b rest ready stream rfl echo fails
    have read := resumeRead_of_failing_echo ready stream echo fails
    exact ⟨_, (step_eq_resumeRead_of_held running held).trans (outcome_of_ended read), rfl, rfl, rfl,
      congrArg List.tail stream, taken_append_take stream, fun _ => rfl, rfl, rfl, fun _ => rfl, rfl, rfl, rfl⟩

end

end Sys2Proof.Proofs
end

section
/-! PROOF. OUT, PUTS and PUTSP (44_trap_system.md R203, R204, R206, R208). The two strings are one walk, with the bytes
of a cell as its parameter. -/

namespace Sys2Proof.Proofs

open Sys2Proof.Machine Sys2Proof.Machine.Laws

section
variable {s : State} {n : Nat}

/-- What is left by a service that the sink accepted `text` from. -/
theorem printed_emitAll (text : List Byte) (s : State) : Printed text s (emitAll text s.link) :=
  ⟨rfl, rfl, reg_link s, fun q other => reg_setReg_ne q linkReg s.pc s other, rfl, rfl, fun _ => rfl, rfl, rfl,
    rfl, rfl, rfl⟩

/-- What was written before a raise stays written (60_exceptions.md R237). -/
theorem printed_raise {text : List Byte} {t : State} (r : Reason) (printed : Printed text s t) :
    Printed text s (raise r t) := printed

theorem reg0_link (s : State) : s.link.reg 0 = s.reg 0 := reg_setReg_ne 0 linkReg s.pc s (by decide)

/-! ### OUT -/

theorem exec_trapOut (s : State) : exec .trapOut s =
    (consoleWrite ((s.reg 0).extractLsb' 0 8) s.link).outcome := by
  rw [← reg0_link s]
  rfl

/-- Settles O28: one write after the link. -/
theorem outEmitsTheLowByteOfR0 : Obligations.OutEmitsTheLowByteOfR0 := by
  refine fun s => ⟨fun accepts => ?_, fun fails => ?_⟩
  · have wrote := consoleWrite_of_accepts (s := s.link) ((s.reg 0).extractLsb' 0 8) accepts
    exact ⟨_, (exec_trapOut s).trans (outcome_of_ok wrote), printed_emitAll _ s, rfl⟩
  · have wrote := consoleWrite_of_fails (s := s.link) ((s.reg 0).extractLsb' 0 8) fails
    exact ⟨_, (exec_trapOut s).trans (outcome_of_ended wrote), rfl, rfl, reg_link s,
      fun q other => reg_setReg_ne q linkReg s.pc s other, rfl, rfl, fun _ => rfl⟩

/-! ### The walk over plain cells -/

variable {bytes : Word → List Byte} {addr : Nat}

/-- A cell of 0x0000 ends the walk, and nothing is written for it. -/
theorem writeString_stops (below : addr + n < memWords) (text : PlainText s addr n)
    (accepts : SinkAccepts s (walkText bytes s addr n).length) (zero : s.cell (addr + n) = 0x0000)
    (plain : addr + n ≠ kbsrAddr) :
    writeString bytes (memWords - addr) addr s = .ok () (emitAll (walkText bytes s addr n) s) := by
  obtain ⟨rest, left⟩ : ∃ rest, memWords - addr = rest + 1 + n := ⟨memWords - addr - n - 1, by omega⟩
  have ended : (emitAll (walkText bytes s addr n) s).cell (addr + n) = 0x0000 := zero
  rw [left, writeString_plain bytes n (rest + 1) addr s (by omega) text accepts, writeString,
    memRead_plain _ _ below plain, andThen_ok, ended, if_pos rfl]

/-- A walk that meets no such cell reads past the top. -/
theorem writeString_runs_off (top : addr + n = memWords) (text : PlainText s addr n)
    (accepts : SinkAccepts s (walkText bytes s addr n).length) :
    writeString bytes (memWords - addr) addr s =
      .ended (raise (.outOfBoundsAccess memWords) (emitAll (walkText bytes s addr n) s)) := by
  have left : memWords - addr = 0 + n := by omega
  rw [left, writeString_plain bytes n 0 addr s (by omega) text accepts, writeString, top,
    memRead_outOfBounds le_rfl, andThen_ended]

/-- Both ends of a string service, for the bytes it writes of each cell. -/
theorem string_service {i : Instr}
    (ran : exec i s = (writeString bytes (memWords - (s.reg 0).toNat) (s.reg 0).toNat s.link).outcome)
    (text : PlainText s (s.reg 0).toNat n) (accepts : SinkAccepts s (walkText bytes s (s.reg 0).toNat n).length) :
    ((s.reg 0).toNat + n < 65536 → s.cell ((s.reg 0).toNat + n) = 0x0000 → (s.reg 0).toNat + n ≠ 0xFE00 →
      ∃ t, exec i s = .next t ∧ Printed (walkText bytes s (s.reg 0).toNat n) s t ∧ t.run = s.run) ∧
    ((s.reg 0).toNat + n = 65536 →
      ∃ t, exec i s = .next t ∧ Printed (walkText bytes s (s.reg 0).toNat n) s t ∧
        t.run = .halted (.outOfBoundsAccess 65536)) := by
  refine ⟨fun below zero plain => ?_, fun top => ?_⟩
  · have walked := writeString_stops (s := s.link) below text accepts zero plain
    exact ⟨_, ran.trans (outcome_of_ok walked), printed_emitAll _ s, rfl⟩
  · have walked := writeString_runs_off (s := s.link) top text accepts
    exact ⟨_, ran.trans (outcome_of_ended walked), printed_raise _ (printed_emitAll _ s), rfl⟩

/-! ### PUTS and PUTSP -/

theorem exec_trapPuts (s : State) : exec .trapPuts s =
    (writeString putsBytes (memWords - (s.reg 0).toNat) (s.reg 0).toNat s.link).outcome := by
  rw [← reg0_link s]
  rfl

theorem exec_trapPutsp (s : State) : exec .trapPutsp s =
    (writeString putspBytes (memWords - (s.reg 0).toNat) (s.reg 0).toNat s.link).outcome := by
  rw [← reg0_link s]
  rfl

theorem putsText_eq (s : State) (addr n : Nat) : putsText s addr n = walkText putsBytes s addr n :=
  List.map_eq_flatMap

theorem putspText_eq (s : State) (addr n : Nat) : putspText s addr n = walkText putspBytes s addr n := rfl

/-- Settles O29: the walk with one byte for each cell. -/
theorem putsEmitsTheStringAtR0 : Obligations.PutsEmitsTheStringAtR0 := by
  intro s n text accepts
  have length : (putsText s (s.reg 0).toNat n).length = n := by simp [putsText]
  rw [putsText_eq] at length ⊢
  exact string_service (exec_trapPuts s) text (by rwa [length])

/-- Settles O30: the walk with one or two bytes for each cell. -/
theorem putspEmitsThePackedStringAtR0 : Obligations.PutspEmitsThePackedStringAtR0 :=
  fun s _ text accepts => string_service (exec_trapPutsp s) text accepts

/-! ### The walk as a loop -/

/-- The walk from an address to the top of memory. -/
def walkFrom (bytes : Word → List Byte) (addr : Nat) (s : State) : Phase Unit :=
  writeString bytes (memWords - addr) addr s

theorem walkFrom_top (bytes : Word → List Byte) (s : State) :
    walkFrom bytes memWords s = .ended (raise (.outOfBoundsAccess memWords) s) := by
  rw [walkFrom, Nat.sub_self, writeString, memRead_outOfBounds le_rfl, andThen_ended]

theorem walkFrom_below (bytes : Word → List Byte) (s : State) (below : addr < memWords) :
    walkFrom bytes addr s = (memRead addr s).andThen fun c s =>
      if c = 0x0000 then .ok () s
      else (consoleWriteAll (bytes c) s).andThen fun _ s => walkFrom bytes (addr + 1) s := by
  have cells : memWords - addr = memWords - (addr + 1) + 1 := by omega
  rw [walkFrom, cells, writeString]
  rfl

theorem andThen_assoc {α β γ : Type} (p : Phase α) (f : α → State → Phase β) (g : β → State → Phase γ) :
    (p.andThen f).andThen g = p.andThen fun v s => (f v s).andThen g := by
  cases p <;> rfl

/-- PUTS writes its one byte (R204). -/
theorem consoleWriteAll_putsBytes (c : Word) (s : State) (rest : Unit → State → Phase Unit) :
    (consoleWriteAll (putsBytes c) s).andThen rest = (consoleWrite (c.extractLsb' 0 8) s).andThen rest := by
  rw [putsBytes, consoleWriteAll, andThen_assoc]
  rfl

/-- PUTSP writes its low byte, then its high byte unless that is zero (R206). -/
theorem consoleWriteAll_putspBytes (c : Word) (s : State) (rest : State → Phase Unit) :
    (consoleWriteAll (putspBytes c) s).andThen (fun _ s => rest s) =
      (consoleWrite (c.extractLsb' 0 8) s).andThen fun _ s =>
        if c.extractLsb' 8 8 = 0 then rest s
        else (consoleWrite (c.extractLsb' 8 8) s).andThen fun _ s => rest s := by
  unfold putspBytes
  split
  · rw [consoleWriteAll, andThen_assoc]
    rfl
  · rw [consoleWriteAll, andThen_assoc]
    simp only [consoleWriteAll, andThen_assoc]
    rfl

/-- Settles O31: the walk from an address is the loop, and the services start it after the link. -/
theorem stringServicesFollowTheirLoops : Obligations.StringServicesFollowTheirLoops := by
  refine ⟨⟨walkFrom putsBytes, exec_trapPuts, walkFrom_top putsBytes, fun a s below => ?_⟩,
    ⟨walkFrom putspBytes, exec_trapPutsp, walkFrom_top putspBytes, fun a s below => ?_⟩⟩
  · simp only [walkFrom_below putsBytes s below, consoleWriteAll_putsBytes]
  · simp only [walkFrom_below putspBytes s below, consoleWriteAll_putspBytes]

end

end Sys2Proof.Proofs
end

section
/-! PROOF. The flags after a flag-setting instruction (40_cycle.md R126, R127): one that finishes ends in a write of
its result, and one that has not finished cannot fetch. -/

namespace Sys2Proof.Proofs

open Sys2Proof.Machine Sys2Proof.Machine.Laws

section
variable {s t : State} {r : Reg}

/-- The flags are the class of the word in `r`. -/
def FlagsOf (r : Reg) (t : State) : Prop := Classifies t.cond (t.reg r) ∧ t.cond ≠ .unset

/-- A state that can fetch has the flags of its result; one that has halted or holds a read cannot. -/
def FlagsIfFetching (r : Reg) (t : State) : Prop := t.Fetching → FlagsOf r t

theorem flagsOf_writeResult (r : Reg) (v : Word) (s : State) : FlagsOf r (writeResult r v s) :=
  have ⟨classified, _, set⟩ := flagsClassifySignedResult r v s
  ⟨classified, set⟩

theorem flagsIfFetching_raise (r : Reg) (reason : Reason) (s : State) : FlagsIfFetching r (raise reason s) :=
  fun fetching => nomatch fetching.1

theorem meets_flags_memRead (a : Nat) (s : State) : Meets (fun _ => True) (FlagsIfFetching r) (memRead a s) := by
  rcases memRead_cases a s with ⟨_, e⟩ | ⟨_, _, e⟩ | ⟨_, _, _, _, e⟩ | ⟨_, _, _, e⟩ | ⟨_, _, e⟩ <;> rw [e]
  · exact flagsIfFetching_raise r _ _
  · exact flagsIfFetching_raise r _ _
  all_goals trivial

theorem meets_flags_loadFrom (r : Reg) (a : Word) (s : State) :
    Meets (FlagsOf r) (FlagsIfFetching r) (loadFrom r a s) :=
  (meets_flags_memRead a.toNat s).andThen fun v u _ _ => flagsOf_writeResult r v u

theorem meets_flags_consoleRead (service : HeldRead) (s : State) :
    Meets (fun _ => True) (FlagsIfFetching r) (consoleRead service s) := by
  rcases consoleRead_cases service s with ⟨_, e⟩ | ⟨_, _, _, e⟩ | ⟨_, _, e⟩ <;> rw [e]
  · exact flagsIfFetching_raise r _ _
  · trivial
  · exact fun fetching => nomatch fetching.2

theorem meets_flags_consoleWrite (b : Byte) (s : State) :
    Meets (fun _ => True) (FlagsIfFetching r) (consoleWrite b s) := by
  rcases consoleWrite_cases b s with ⟨_, e⟩ | ⟨_, e⟩ <;> rw [e]
  · exact flagsIfFetching_raise r _ _
  · trivial

theorem meets_flags_consoleWriteAll (bytes : List Byte) (s : State) :
    Meets (fun _ => True) (FlagsIfFetching r) (consoleWriteAll bytes s) := by
  induction bytes generalizing s with
  | nil => trivial
  | cons b rest ih => exact (meets_flags_consoleWrite b s).andThen fun _ u _ _ => ih u

theorem meets_flags_resumeRead (service : HeldRead) (s : State) :
    Meets (FlagsOf 0) (FlagsIfFetching 0) (resumeRead service s) := by
  cases service with
  | getc => exact (meets_flags_consoleRead .getc s).andThen fun b u _ _ => flagsOf_writeResult 0 (zext16 b) u
  | inService =>
    refine (meets_flags_consoleRead .inService s).andThen fun b u _ _ => ?_
    refine Meets.andThen (P := fun _ => True) ?_ fun _ v _ _ => flagsOf_writeResult 0 (zext16 b) v
    split
    · exact meets_flags_consoleWrite b u
    · trivial

/-- A flag-setting instruction that finishes has the flags of its result. -/
theorem exec_flags {i : Instr} (sets : flagsFrom i = some r) (s : State) :
    ∃ t, exec i s = .next t ∧ FlagsIfFetching r t := by
  have done : ∀ t, FlagsOf r t → FlagsIfFetching r t := fun _ flags _ => flags
  cases i with
  | addReg _ _ _ | addImm _ _ _ | andReg _ _ _ | andImm _ _ _ | not _ _ | lea _ _ =>
    cases sets
    exact ⟨_, rfl, fun _ => flagsOf_writeResult _ _ s⟩
  | ld _ _ | ldr _ _ _ =>
    cases sets
    exact (meets_flags_loadFrom _ _ s).outcome done
  | ldi _ _ =>
    cases sets
    exact ((meets_flags_memRead _ s).andThen fun a u _ _ => meets_flags_loadFrom _ a u).outcome done
  | trapGetc =>
    cases sets
    exact (meets_flags_resumeRead .getc s.link).outcome done
  | trapIn =>
    cases sets
    exact ((meets_flags_consoleWriteAll _ s.link).andThen fun _ u _ _ =>
      meets_flags_resumeRead .inService u).outcome done
  | br _ _ _ _ | ret | jmp _ | jsr _ | jsrr _ | st _ _ | sti _ _ | str _ _ _ | rti | reserved | trapOut | trapPuts
  | trapPutsp | trapHalt | trapInvalid _ => cases sets

/-- Settles O54: the one state a flag-setting instruction answers is a finished one if it can fetch. -/
theorem everyFlagSetterClassifiesItsResult : Obligations.EveryFlagSetterClassifiesItsResult :=
  fun _ _ s _ sets ran fetching => of_exec_next ran (exec_flags sets s) fetching

end

end Sys2Proof.Proofs
end
